-- ==== Sys2Proof/Word.lean ====
section
/-! DEFINITION. The bit vectors of DPPK-MAU: what the spec adds, masks or lays out in a word (rules R5, R8, R36, R54). -/

namespace Sys2Proof

/-- The value of an operand register or of `MOD`: a natural of `W` = 2048 bits (R5, R13, R17). -/
abbrev Operand := BitVec 2048

/-- One 32-bit word of the register interface, a command word among them (R5 `BUS_W`, R53). -/
abbrev Word := BitVec 32

/-- A 4-bit register field of a command word (R54, R56). -/
abbrev RegField := BitVec 4

/-- A byte offset into the 4096-byte register space (R20, R36, R37 `addr`). -/
abbrev Offset := BitVec 12

/-- A byte-strobe mask: bit k enables byte lane k (R36, R37 `wstrb`). -/
abbrev Strobe := BitVec 4

end Sys2Proof
end

