-- ==== Sys2Proof/Syntax.lean ====
section
/-! DEFINITION. The commands of DPPK-MAU 1.0, one constructor for each row of spec/opcode_table.json (R2, R58).
The pseudo-command `MODSQR` is `modmul rd rs rs` (R61) and has no constructor. -/

namespace Sys2Proof

/-- A command. A register operand is the 4-bit field that names it (R54); `Instr.wellFormed` says which fields name a
register (R56). -/
inductive Instr where
  /-- `NOP` (R71), format N. -/
  | nop
  /-- `MODMUL rd, rs1, rs2` (R73), format R2. -/
  | modmul (rd rs1 rs2 : RegField)
  /-- `MODINV rd, rs1` (R76), format R1. -/
  | modinv (rd rs1 : RegField)
  /-- `MODSQRT rd, rs1` (R82), format R1. -/
  | modsqrt (rd rs1 : RegField)
  /-- `MODEXP rd, rs1, rs2` (R88), format R2. -/
  | modexp (rd rs1 rs2 : RegField)
  deriving DecidableEq, Repr

end Sys2Proof
end

