-- ==== Sys2Proof/WellFormed.lean ====
section
/-! DEFINITION. Which commands are well-formed: every register field the command uses names a register (R55, R56). -/

namespace Sys2Proof

/-- The register fields a command's format uses (R55). -/
def Instr.fields : Instr → List RegField
  | .nop => []
  | .modmul rd rs1 rs2 => [rd, rs1, rs2]
  | .modinv rd rs1 => [rd, rs1]
  | .modsqrt rd rs1 => [rd, rs1]
  | .modexp rd rs1 rs2 => [rd, rs1, rs2]

/-- A field value of 0 to 7 names a register; 8 to 15 names none (R56). -/
def Instr.wellFormed (i : Instr) : Bool := i.fields.all fun f => decide (f.toNat ≤ 7)

end Sys2Proof
end

