-- ==== Sys2Proof/Decode.lean ====
section
/-! DEFINITION. Decoding a command word (R54 to R59), total on every 32-bit word, and the encoder (R58). -/

namespace Sys2Proof

/-- What `Decode` says of a word (R59): a command, or one of the two illegal verdicts. -/
inductive Verdict where
  /-- `Cmd(...)`: the word is this command. -/
  | cmd (i : Instr)
  /-- `Illegal(ILLEGAL_OPCODE)`: `OPC` is above 0x04. -/
  | illegalOpcode
  /-- `Illegal(ILLEGAL_OPERAND)`: a used register field is 8 to 15, or an unused field or `RSV` is not 0. -/
  | illegalOperand
  deriving DecidableEq, Repr

/-- Bits 31:24 of a command word (R54). -/
def fieldOpc (w : Word) : BitVec 8 := w.extractLsb' 24 8

/-- Bits 23:20 of a command word (R54). -/
def fieldRd (w : Word) : RegField := w.extractLsb' 20 4

/-- Bits 19:16 of a command word (R54). -/
def fieldRs1 (w : Word) : RegField := w.extractLsb' 16 4

/-- Bits 15:12 of a command word (R54). -/
def fieldRs2 (w : Word) : RegField := w.extractLsb' 12 4

/-- Bits 11:0 of a command word, which must be 0 (R54). -/
def fieldRsv (w : Word) : BitVec 12 := w.extractLsb' 0 12

/-- `Decode(w)` (R59). The order of the checks is the priority of the two illegal verdicts (R95). -/
def decode (w : Word) : Verdict :=
  if 0x04#8 < fieldOpc w then .illegalOpcode
  else if fieldOpc w = 0x00#8 then
    if fieldRd w = 0 ∧ fieldRs1 w = 0 ∧ fieldRs2 w = 0 ∧ fieldRsv w = 0 then .cmd .nop else .illegalOperand
  else if fieldRsv w ≠ 0 ∨ 7#4 < fieldRd w ∨ 7#4 < fieldRs1 w then .illegalOperand
  else if fieldOpc w = 0x01#8 ∨ fieldOpc w = 0x04#8 then
    if 7#4 < fieldRs2 w then .illegalOperand
    else if fieldOpc w = 0x01#8 then .cmd (.modmul (fieldRd w) (fieldRs1 w) (fieldRs2 w))
    else .cmd (.modexp (fieldRd w) (fieldRs1 w) (fieldRs2 w))
  else if fieldRs2 w ≠ 0 then .illegalOperand
  else if fieldOpc w = 0x02#8 then .cmd (.modinv (fieldRd w) (fieldRs1 w))
  else .cmd (.modsqrt (fieldRd w) (fieldRs1 w))

/-- A register field moved up to the bit where it starts in the word (R58 `rd<<20`, `rs1<<16`, `rs2<<12`). -/
def placed (f : RegField) (lo : Nat) : Word := f.setWidth 32 <<< lo

/-- The encoding of each command (R58 `enc`). -/
def encode : Instr → Word
  | .nop => 0x00000000
  | .modmul rd rs1 rs2 => 0x01000000 ||| placed rd 20 ||| placed rs1 16 ||| placed rs2 12
  | .modinv rd rs1 => 0x02000000 ||| placed rd 20 ||| placed rs1 16
  | .modsqrt rd rs1 => 0x03000000 ||| placed rd 20 ||| placed rs1 16
  | .modexp rd rs1 rs2 => 0x04000000 ||| placed rd 20 ||| placed rs1 16 ||| placed rs2 12

/-- The pseudo-command `MODSQR rd, rs` (R61). -/
def modsqr (rd rs : RegField) : Instr := .modmul rd rs rs

/-- The `match` column of the opcode table (R58). -/
def tableMatch : Instr → Word
  | .nop => 0x00000000
  | .modmul _ _ _ => 0x01000000
  | .modinv _ _ => 0x02000000
  | .modsqrt _ _ => 0x03000000
  | .modexp _ _ _ => 0x04000000

/-- The `mask` column of the opcode table (R58). -/
def tableMask : Instr → Word
  | .nop => 0xFFFFFFFF
  | .modmul _ _ _ => 0xFF888FFF
  | .modinv _ _ => 0xFF88FFFF
  | .modsqrt _ _ => 0xFF88FFFF
  | .modexp _ _ _ => 0xFF888FFF

/-- The instruction the decoder reads from the low `nbits` bits of `w`: a command is one 32-bit word (R53), so the bits
above `nbits` are 0. -/
def decodeTableWord (nbits w : Nat) : Option Instr :=
  match decode (BitVec.ofNat 32 (w % 2 ^ nbits)) with
  | .cmd i => some i
  | .illegalOpcode => none
  | .illegalOperand => none

end Sys2Proof
end

