-- ==== Sys2Proof/Config.lean ====
section
/-! DEFINITION. What DPPK-MAU 1.0 fixes (R2, R5, R27) and the parameters the platform sets (OPEN in the spec's
92_eei_decisions.md): those have no body, so nothing proved can rest on a value of theirs. -/

namespace Sys2Proof.Config

/-- `W`, the width in bits of every operand register and of `MOD` (R5). -/
def operandWidth : Nat := 2048

/-- `NREG`, the number of operand registers (R5). -/
def numRegs : Nat := 8

/-- `Z_MAX`, the largest non-residue candidate `MODSQRT` tries (R5, R84). -/
def zMax : Nat := 2 ^ 24

/-- `ASPACE`, the size of the register space in bytes (R5). -/
def addressSpace : Nat := 4096

/-- The constant of the read-only register `ID`, ASCII "DPKM" (R2, R27). -/
def idWord : Word := 0x44504B4D

/-- The constant of the read-only register `VERSION` (R2, R27). -/
def versionWord : Word := 0x00010000

/-- The constant of the read-only register `PARAM`: `W`, `NREG` and log2 `Z_MAX` (R2, R27). -/
def paramWord : Word := 0x18080800

/-- `BASE`, the system address of offset 0: OPEN, the platform sets it (R5, R33). Assumption log 15. -/
opaque base : Nat

/-- `IRQ_LINE`, the interrupt-controller input that `irq` drives: OPEN, the platform sets it (R98). Assumption log 15. -/
opaque irqLine : Nat

/-- The level of the `irq` output where the spec leaves the state unspecified, before the first reset and after a loss of
power (R35, R108): a free value at each moment, numbered by the events still to come. DESIGN CHOICE, assumption log 7. -/
opaque unspecifiedIrq : Nat → Bool

end Sys2Proof.Config
end

