-- ==== Sys2Proof/Machine/Script.lean ====
section
/-! DEFINITION. The syntax of host scripts (R62): the registers they name, their expressions, conditions and statements,
and the state of one host that runs one. What a statement does is in Machine/HostAgent.lean. -/

namespace Sys2Proof.Machine

/-- A 2048-bit register with a window: `MOD`, or the operand register `Rk` (R13, R17, R38). -/
inductive BigReg where
  | mod
  | r (k : Fin 8)
  deriving DecidableEq, Repr

/-- A host expression over host variables (R10, R62). A variable is named by its number; `$s` is number 0. The bounds of
`v[hi:lo]` are literals and not expressions. R62 leaves both open: DESIGN CHOICE, assumption log 11. -/
inductive HostExpr where
  | num (n : Nat)
  | var (v : Nat)
  | add (a b : HostExpr)
  | sub (a b : HostExpr)
  | mul (a b : HostExpr)
  | div (a b : HostExpr)
  | mod (a b : HostExpr)
  | pow (a e : HostExpr)
  | gcd (a b : HostExpr)
  | powmod (a e p : HostExpr)
  | band (a b : HostExpr)
  | slice (a : HostExpr) (hi lo : Nat)
  deriving DecidableEq, Repr

/-- A condition of an `IF` statement (R62): one comparison of two expressions by `=`, `!=`, `<` or `>=`, which stand in no
expression. R62 lists its operators for conditions and expressions together: DESIGN CHOICE, assumption log 11. -/
inductive HostCond where
  | eq (a b : HostExpr)
  | ne (a b : HostExpr)
  | lt (a b : HostExpr)
  | ge (a b : HostExpr)
  deriving DecidableEq, Repr

/-- A host statement (R62). A label is the index of the statement it stands before. The offset of `WR` and `RD` is a literal
and not an expression, while the data word of `WR` and the natural of `LDBIG` are expressions. R62 leaves this open: DESIGN
CHOICE, assumption log 11. -/
inductive HostStmt where
  | wr (off : Offset) (d : HostExpr)
  | rd (off : Offset) (v : Nat)
  | ldbig (x : BigReg) (n : HostExpr)
  | rdbig (x : BigReg) (v : Nat)
  | cmd (i : Instr)
  | wait
  | ack
  | ifGoto (c : HostCond) (target : Nat)
  | goto (target : Nat)
  | halt
  | assign (v : Nat) (e : HostExpr)
  deriving DecidableEq, Repr

/-- A host that runs a script (R6(a), R62). -/
structure HostAgent where
  /-- The numbered list of statements. -/
  script : List HostStmt
  /-- The host's own statement index (R19, R62). -/
  hpc : Nat
  /-- How many transactions of the current statement are done (`LDBIG` and `RDBIG` have 64). -/
  sub : Nat
  /-- The sum an `RDBIG` in progress has gathered. -/
  acc : Nat
  /-- The host variables that have a value, by rising number. -/
  vars : List (Nat × Nat)
  /-- `HALT` has been executed. -/
  halted : Bool
  deriving DecidableEq, Repr

end Sys2Proof.Machine
end

