-- ==== Sys2Proof/Machine/State.lean ====
section
/-! DEFINITION. The state of DPPK-MAU (10_state.md), its environment (hosts, the port, the order of events), the reasons a
step can stop, and the state after reset (R34). -/

namespace Sys2Proof.Machine

/-- A bus transaction (R36). -/
inductive Transaction where
  /-- `Read(off)`. -/
  | read (off : Offset)
  /-- `Write(off, d, strb)`. -/
  | write (off : Offset) (d : Word) (strb : Strobe)
  deriving DecidableEq, Repr

/-- The input pins at one rising edge of `clk` (R37). -/
structure Pins where
  rstN : Bool
  req : Bool
  we : Bool
  addr : Offset
  wdata : Word
  wstrb : Strobe
  deriving DecidableEq, Repr

/-- One entry of the total order in which DPPK-MAU performs transactions and completion steps (R6, R48), with the
external events beside them. The list of them in `Env.schedule` stands for the choices the spec leaves free (R70, R123):
assumption log 2. -/
inductive Event where
  /-- A transaction of some host, at transaction level (R36). -/
  | bus (t : Transaction)
  /-- The host with this place in `Env.hosts` takes the next step of its script (R62). -/
  | host (k : Nat)
  /-- The engine takes its completion step, if it is enabled (R68). -/
  | engine
  /-- A rising edge of `clk` with these input pins; `ack` says whether the unit acknowledges a request held since an
  earlier edge (R37). -/
  | edge (pins : Pins) (ack : Bool)
  /-- A reset through `rst_n`, at transaction level (R109(a), R110). -/
  | hardReset
  /-- Power is removed and returns (R108). -/
  | powerCycle
  deriving DecidableEq, Repr

/-- What the port answers in the step just taken (R36, R37, R47). -/
inductive Response where
  /-- No transaction was performed: `ack` is 0. -/
  | none
  /-- A read was performed: `ack` is 1 and `rdata` holds this word. -/
  | readData (d : Word)
  /-- A write was performed: `ack` is 1. -/
  | writeDone
  deriving DecidableEq, Repr

/-- What stands outside the unit's registers: the model's own fields (assumption log 2, 7, 8, 11). -/
structure Env where
  /-- The events still to come, the next one first. When it is empty the engine completes the command in flight. -/
  schedule : List Event
  /-- The hosts that run scripts (R62, R106). -/
  hosts : List HostAgent
  /-- The pins of a request held since an earlier clock edge and not yet acknowledged (R37). -/
  request : Option Pins
  /-- What the port answers in the step just taken. -/
  response : Response
  /-- A reset has been applied since power-up, so that the state is specified (R35, R108, R113). -/
  resetApplied : Bool
  deriving DecidableEq, Repr

/-- The state of the machine. `STATUS.IRQ`, `STATUS.MODOK` and the `irq` output are functions of it (Machine/Flags.lean),
and so are the words of `CTRL` and `STATUS`. There is no program counter (R19) and no memory (R33). -/
structure State where
  /-- `R0` to `R7` (R13). -/
  regs : Vector Operand 8
  /-- `MOD` (R17). -/
  mod : Operand
  /-- `CTRL.IE_DONE` (R21). -/
  ieDone : Bool
  /-- `CTRL.IE_ERR` (R21). -/
  ieErr : Bool
  /-- `STATUS.BUSY` (R23): a command is in flight (R31). -/
  busy : Bool
  /-- `STATUS.DONE` (R23). -/
  done : Bool
  /-- `STATUS.ERR` (R23). -/
  err : Bool
  /-- `STATUS.DROP` (R23). -/
  drop : Bool
  /-- `STATUS.ACCERR` (R23). -/
  accErr : Bool
  /-- `STATUS.ERRCODE` (R23). -/
  errCode : BitVec 4
  /-- `LASTCMD` (R26): the last accepted command word, and the command in flight while `BUSY` is 1 (R31). -/
  lastCmd : Word
  /-- The environment. -/
  env : Env
  deriving DecidableEq, Repr

/-- The errors a command can end with (R90); code 0 is success. -/
inductive CmdError where
  | illegalOpcode
  | illegalOperand
  | badModulus
  | noInverse
  | nonResidue
  | sqrtFail
  deriving DecidableEq, Repr

/-- Why a step stops with a fault. Both are the environment's breach of a duty the spec puts on a host; no command and no
completed transaction raises one (R47, R99). -/
inductive Fault where
  /-- Raised at a clock edge where a request held since an earlier edge is withdrawn or changed before it is acknowledged,
  which R37 forbids and gives no effect. Safe: the machine stops. -/
  | busProtocol
  /-- Raised when a scripted host reaches a statement that R60 or R62 does not allow: an expression without a value, a
  value too large for what it is written to, or a command with a register outside `r0` to `r7`. Safe: the machine stops. -/
  | hostScript
  deriving DecidableEq, Repr

/-- Why a step is refused: the runs the spec tells a model to exclude (93_implementation_defined.md items 1, 2, 9). -/
inductive Refusal where
  /-- Raised by no arm of this model: every instruction has its meaning. Safe. -/
  | notModelled (mnemonic : String)
  /-- Raised when the engine or a transaction needs the state before the first reset after power-up, which is unspecified
  (R35, R108, R112). Safe. -/
  | resetNotApplied
  /-- Raised when a transaction overlaps an assertion of `rst_n` (R110, "the model refuses such a transaction"). Safe. -/
  | transactionDuringReset
  deriving DecidableEq, Repr

/-- The environment of a machine just reset, before anything is known of its hosts. -/
def Env.quiet : Env :=
  { schedule := [], hosts := [], request := none, response := .none, resetApplied := true }

/-- The state after reset (R34). -/
def State.reset : State :=
  { regs := Vector.replicate 8 0
    mod := 0
    ieDone := false
    ieErr := false
    busy := false
    done := false
    err := false
    drop := false
    accErr := false
    errCode := 0
    lastCmd := 0
    env := Env.quiet }

end Sys2Proof.Machine
end

