-- ==== Sys2Proof/Machine/Flags.lean ====
section
/-! DEFINITION. What is computed from the state's flags and enables: the validity of `MOD` (R18), the `irq` output (R29), the
words a host reads from `STATUS` and `CTRL` (R21, R23), and the error codes (R90). -/

namespace Sys2Proof.Machine

/-- The code of an error (R90); `MODINV`'s own is 4 (R78) and `MODSQRT`'s for a non-residue is 5 (R86). -/
def CmdError.code : CmdError → BitVec 4
  | .illegalOpcode => 1
  | .illegalOperand => 2
  | .badModulus => 3
  | .noInverse => 4
  | .nonResidue => 5
  | .sqrtFail => 6

/-- `MOD` is valid when it is odd and at least 3 (R18). -/
def modulusValid (m : Operand) : Bool := m.toNat % 2 == 1 && 3 ≤ m.toNat

/-- `STATUS.MODOK` (R18, R23). -/
def State.modOk (s : State) : Bool := modulusValid s.mod

/-- The level of the `irq` output and of `STATUS.IRQ` (R29). -/
def State.irq (s : State) : Bool :=
  (s.done && s.ieDone) || ((s.err || s.drop || s.accErr) && s.ieErr)

/-- The platform's interrupt line and the level the unit drives on it (R98). Until a reset has been applied the state is
unspecified (R35, R108), and with it the level: there it is a free value, the model's choice (assumption log 7). -/
def State.irqOutput (s : State) : Nat × Bool :=
  (Config.irqLine, if s.env.resetApplied then s.irq else Config.unspecifiedIrq s.env.schedule.length)

/-- The word a read of `STATUS` returns (R23): reserved bits 31:12 and 7 read 0. -/
def State.statusWord (s : State) : Word :=
  (0#20 ++ s.errCode ++ 0#1 ++ BitVec.ofBool s.modOk ++ BitVec.ofBool s.irq ++ BitVec.ofBool s.accErr ++
    BitVec.ofBool s.drop ++ BitVec.ofBool s.err ++ BitVec.ofBool s.done ++ BitVec.ofBool s.busy : BitVec 32)

/-- The word a read of `CTRL` returns (R21): `SRST` and the reserved bits read 0. -/
def State.ctrlWord (s : State) : Word :=
  (0#30 ++ BitVec.ofBool s.ieErr ++ BitVec.ofBool s.ieDone : BitVec 32)

end Sys2Proof.Machine
end

