-- ==== Sys2Proof/Machine/Operands.lean ====
section
/-! DEFINITION. Operands: the registers a command's fields name (R56, R57), the register map (R20), and the layout of a
2048-bit register in its window (R38). -/

namespace Sys2Proof.Machine

/-- A register field names a register when its bit 3 is 0 (R56). -/
def namesRegister (f : RegField) : Bool := decide (f.toNat ≤ 7)

/-- The place in the register file that a field selects: its low three bits (R56; assumption log 4 for the fields that
name no register). -/
def regSlot (f : RegField) : Fin 8 := ⟨f.toNat % 8, Nat.mod_lt _ (by decide)⟩

/-- `R[f]` (R11, R57). -/
def State.readReg (s : State) (f : RegField) : Operand := s.regs[regSlot f]

/-- `R[f] <- v` (R11, R14). -/
def State.writeReg (s : State) (f : RegField) (v : Operand) : State :=
  { s with regs := s.regs.set (regSlot f) v }

/-- The value of a register that has a window (R38). -/
def State.readBig (s : State) : BigReg → Operand
  | .mod => s.mod
  | .r k => s.regs[k]

/-- Writes a register that has a window (R38). -/
def State.writeBig (s : State) (x : BigReg) (v : Operand) : State :=
  match x with
  | .mod => { s with mod := v }
  | .r k => { s with regs := s.regs.set k v }

/-- The least significant bit of word j of a window: word 0 is the most significant (R38). -/
def wordShift (j : Nat) : Nat := 32 * (63 - j)

/-- `word(X, j)` (R38). -/
def wordOf (x : Operand) (j : Nat) : Word := x.extractLsb' (wordShift j) 32

/-- `X` with word j replaced by `d`: `X - word(X,j)·2^(32·(63-j)) + d·2^(32·(63-j))` (R43). -/
def withWord (x : Operand) (j : Nat) (d : Word) : Operand :=
  BitVec.ofNat 2048 (x.toNat - (wordOf x j).toNat * 2 ^ wordShift j + d.toNat * 2 ^ wordShift j)

/-- What stands at a word-aligned offset of the register space (R20). -/
inductive Target where
  | id
  | version
  | ctrl
  | status
  | cmd
  | param
  /-- Word j of the window of `x`. -/
  | window (x : BigReg) (j : Nat)
  | reserved
  deriving DecidableEq, Repr

/-- The register whose window is the 256-byte page with this number (R20): page 1 is `MOD`, pages 2 to 9 are `R0` to
`R7`. -/
def pageRegister (page : Nat) : Option BigReg :=
  if page = 1 then some .mod
  else if h : 2 ≤ page ∧ page ≤ 9 then some (.r ⟨page - 2, by omega⟩)
  else none

/-- The register map (R20) at a word-aligned offset. -/
def target (off : Offset) : Target :=
  if off = 0x000 then .id
  else if off = 0x004 then .version
  else if off = 0x008 then .ctrl
  else if off = 0x00C then .status
  else if off = 0x010 then .cmd
  else if off = 0x018 then .param
  else
    match pageRegister (off.toNat / 256) with
    | some x => .window x (off.toNat % 256 / 4)
    | none => .reserved

/-- The offset where the window of a register starts (R20, R38). -/
def windowBase : BigReg → Nat
  | .mod => 0x100
  | .r k => 0x200 + 0x100 * k.val

/-- The offset of word j of a register's window (R38). -/
def windowOffset (x : BigReg) (j : Nat) : Offset := BitVec.ofNat 12 (windowBase x + 4 * j)

/-- The system address of an offset, where the platform places the register space (R33, R105). -/
def systemAddress (off : Offset) : Nat := Config.base + off.toNat

end Sys2Proof.Machine
end

