-- ==== Sys2Proof/Machine/Arith.lean ====
section
/-! DEFINITION. The arithmetic of the commands on naturals (R10, R72, R75, R80, R87): what each computes once its operands
and its modulus have been checked. Each function evaluates by structural recursion; Laws/Arith.lean proves that `powMod` is
`a^e mod p` and that `inverseMod` is the inverse of R75. -/

namespace Sys2Proof.Machine

/-- The outcome of a command (R11, R67). -/
inductive ExecResult where
  /-- `OK(v)`. -/
  | okValue (v : Nat)
  /-- `OK`. -/
  | ok
  /-- `Fail(code)`. -/
  | fail (e : CmdError)
  deriving DecidableEq, Repr

/-- Right-to-left binary exponentiation over at most `n` exponent bits (R89). -/
def powModSteps : Nat → Nat → Nat → Nat → Nat
  | 0, _, _, p => 1 % p
  | n + 1, b, e, p =>
    if e = 0 then 1 % p
    else if e % 2 = 1 then powModSteps n (b * b % p) (e / 2) p * b % p
    else powModSteps n (b * b % p) (e / 2) p

/-- `powmod(a, e, p)`, which is `a^e mod p` (R10). -/
def powMod (a e p : Nat) : Nat := powModSteps (e.log2 + 1) (a % p) e p

/-- The extended Euclid loop (R75, R77): each remainder `r` goes with a coefficient `t` for which `r ≡ t·a (mod p)`. It
ends at the remainder 0, and answers the coefficient of the gcd. -/
def euclidSteps : Nat → Nat → Nat → Nat → Nat → Nat → Nat
  | 0, _, _, t0, _, _ => t0
  | n + 1, r0, r1, t0, t1, p =>
    if r1 = 0 then t0
    else euclidSteps n r1 (r0 % r1) t1 ((t0 + (p - r0 / r1 * t1 % p)) % p) p

/-- The inverse of `a` modulo `p`, for `a < p` with `gcd(a, p) = 1` (R75). -/
def inverseMod (a p : Nat) : Nat := euclidSteps (a + 1) p a 0 1 p

/-- Takes factors of 2 out of `n`, at most `k` of them, and counts them in `s`. -/
def splitTwos : Nat → Nat → Nat → Nat × Nat
  | 0, n, s => (n, s)
  | k + 1, n, s => if n % 2 = 0 then splitTwos k (n / 2) (s + 1) else (n, s)

/-- The odd `q` and the `s` with `n = q * 2^s`, for `n > 0` (R80 step 3). -/
def oddPart (n : Nat) : Nat × Nat := splitTwos (n.log2 + 1) n 0

/-- The search of R80 step 4 from the candidate `z` on, for at most `k` candidates: `some z` at the first one whose Euler
value is `p - 1`, `none` for `SQRT_FAIL`. -/
def findNonResidue : Nat → Nat → Nat → Nat → Option Nat
  | 0, _, _, _ => none
  | k + 1, z, h, p =>
    if Config.zMax < z ∨ p ≤ z then none
    else if powMod z h p = p - 1 then some z
    else if powMod z h p ≠ 1 then none
    else findNonResidue k (z + 1) h p

/-- The least `i` with `1 ≤ i ≤ m - 1` and `powmod(t, 2^i, p) = 1` (R80 step 5). -/
def leastOrder (t m p : Nat) : Option Nat :=
  (List.range' 1 (m - 1)).find? fun i => powMod t (2 ^ i) p == 1

/-- The Tonelli–Shanks loop of R80 step 5, for at most `k` rounds: `some r` when `t` has become 1, `none` for
`SQRT_FAIL`. -/
def tonelliLoop : Nat → Nat → Nat → Nat → Nat → Nat → Option Nat
  | 0, _, _, _, _, _ => none
  | k + 1, m, c, t, r, p =>
    if t = 1 then some r
    else
      match leastOrder t m p with
      | none => none
      | some i =>
        let b := powMod c (2 ^ (m - i - 1)) p
        let c' := b * b % p
        tonelliLoop k i c' (t * c' % p) (r * b % p) p

/-- Steps 6 and 7 of R80: verify the root and make it canonical, which fixes the order of a host's two candidates (R86). -/
def finishRoot (a r p : Nat) : ExecResult :=
  if r * r % p ≠ a then .fail .sqrtFail
  else if (p - 1) / 2 < r then .okValue (p - r)
  else .okValue r

/-- Steps 3 to 7 of R80, for a reduced `a` that has passed Euler's criterion. -/
def sqrtAfterEuler (a p : Nat) : ExecResult :=
  let q := (oddPart (p - 1)).1
  let s := (oddPart (p - 1)).2
  let t := powMod a q p
  let r := powMod a ((q + 1) / 2) p
  if t = 1 then finishRoot a r p
  else
    match findNonResidue Config.zMax 2 ((p - 1) / 2) p with
    | none => .fail .sqrtFail
    | some z =>
      match tonelliLoop s s (powMod z q p) t r p with
      | none => .fail .sqrtFail
      | some root => finishRoot a root p

/-- `SqrtProc(a, p)`, for odd `p ≥ 3`, prime or composite (R80). -/
def sqrtProc (a p : Nat) : ExecResult :=
  if a % p = 0 then .okValue 0
  else if powMod (a % p) ((p - 1) / 2) p = p - 1 then .fail .nonResidue
  else if powMod (a % p) ((p - 1) / 2) p ≠ 1 then .fail .sqrtFail
  else sqrtAfterEuler (a % p) p

/-- `Exec_MODMUL(a, b, p)` (R73). -/
def mulResult (a b p : Nat) : ExecResult := .okValue (a * b % p)

/-- `Exec_MODINV(a, p)` (R76). -/
def inverseResult (a p : Nat) : ExecResult :=
  if Nat.gcd (a % p) p ≠ 1 then .fail .noInverse else .okValue (inverseMod (a % p) p)

/-- `Exec_MODSQRT(a, p)` (R82). -/
def sqrtResult (a p : Nat) : ExecResult := sqrtProc a p

/-- `Exec_MODEXP(x, e, p)` (R88). -/
def powResult (x e p : Nat) : ExecResult := .okValue (powMod (x % p) e p)

end Sys2Proof.Machine
end

