-- ==== Sys2Proof/Machine/Ops.lean ====
section
/-! DEFINITION. The shared operations: a command's end with success or with an error (R68, R92), the writes to `CTRL`,
`STATUS` and `CMD` (R21, R22, R24, R64), reset (R109), and the bus transactions (R42, R43). -/

namespace Sys2Proof.Machine

/-! ## How a command ends -/

/-- A command's successful end: `DONE <- 1`, `ERRCODE <- 0`, `BUSY <- 0` (R68). -/
def State.reportSuccess (s : State) : State := { s with done := true, errCode := 0, busy := false }

/-- Taking an error, `raise CmdError(code)`: `ERR <- 1`, `ERRCODE <- code`, `BUSY <- 0` and nothing else (R68, R91, R92).
There is no saved program counter, no vector and no mode (R99, R103). -/
def State.raiseError (s : State) (e : CmdError) : State :=
  { s with err := true, errCode := e.code, busy := false }

/-- `Complete()` on the outcome of the command in flight, whose destination field is `rd` (R68). -/
def State.complete (s : State) (rd : RegField) : ExecResult → State
  | .okValue v => (s.writeReg rd (BitVec.ofNat 2048 v)).reportSuccess
  | .ok => s.reportSuccess
  | .fail e => s.raiseError e

/-- The checks `Execute` makes before an arithmetic command's own function, in the order of their priority (R67, R95):
`ILLEGAL_OPERAND` for a field that names no register, then `BAD_MODULUS` (R69). -/
def checkedResult (fields : List RegField) (m : Operand) (f : Nat → ExecResult) : ExecResult :=
  if !fields.all namesRegister then .fail .illegalOperand
  else if !modulusValid m then .fail .badModulus
  else f m.toNat

/-! ## Writes to the control registers -/

/-- A write of `d` to `STATUS` (R24). Writing 1 to bit 2 is the return from an error: `ERR` and `ERRCODE` are cleared, and
commands are accepted again (R100). -/
def State.statusWrite (s : State) (d : Word) : State :=
  { s with
    done := s.done && !d.getLsbD 1
    err := s.err && !d.getLsbD 2
    errCode := if d.getLsbD 2 then 0 else s.errCode
    drop := s.drop && !d.getLsbD 3
    accErr := s.accErr && !d.getLsbD 4 }

/-- Reset, hard or soft (R109): every register takes the value of R34, and a command in flight is abandoned. The
environment stays, and the state is specified from here on (R35). -/
def State.unitReset (s : State) : State :=
  { State.reset with env := { s.env with resetApplied := true } }

/-- A write of `d` to `CTRL` (R21): with bit 31 set it is a soft reset and its other bits are ignored (R22). -/
def State.ctrlWrite (s : State) (d : Word) : State :=
  if d.getLsbD 31 then s.unitReset else { s with ieDone := d.getLsbD 0, ieErr := d.getLsbD 1 }

/-- `CmdWrite(d)` (R64): refused while `BUSY` or `ERR` is 1 (R65), else accepted. -/
def State.cmdWrite (s : State) (d : Word) : State :=
  if s.busy || s.err then { s with drop := true }
  else { s with lastCmd := d, done := false, busy := true }

/-- An access the interface does not allow sets `ACCERR` and has no other effect (R93). -/
def State.accessError (s : State) : State := { s with accErr := true }

/-! ## Bus transactions -/

/-- `MemRead(off, 4)` (R42): the word read and the state after. -/
def State.memRead (s : State) (off : Offset) : Word × State :=
  if off.toNat % 4 ≠ 0 then (0, s.accessError)
  else
    match target off with
    | .id => (Config.idWord, s)
    | .version => (Config.versionWord, s)
    | .ctrl => (s.ctrlWord, s)
    | .status => (s.statusWord, s)
    | .cmd => (s.lastCmd, s)
    | .param => (Config.paramWord, s)
    | .window x j => if s.busy then (0, s.accessError) else (wordOf (s.readBig x) j, s)
    | .reserved => (0, s.accessError)

/-- `MemWrite(off, 4, d, strb)` (R43): the state after. -/
def State.memWrite (s : State) (off : Offset) (d : Word) (strb : Strobe) : State :=
  if off.toNat % 4 ≠ 0 ∨ strb ≠ 0b1111 then s.accessError
  else
    match target off with
    | .id => s.accessError
    | .version => s.accessError
    | .param => s.accessError
    | .ctrl => s.ctrlWrite d
    | .status => s.statusWrite d
    | .cmd => s.cmdWrite d
    | .window x j => if s.busy then s.accessError else s.writeBig x (withWord (s.readBig x) j d)
    | .reserved => s.accessError

/-- The port's answer to the step just taken (R36, R37). -/
def State.respond (s : State) (r : Response) : State := { s with env := { s.env with response := r } }

/-- The whole effect of one transaction, with the port's answer (R36, R47: every transaction completes normally). -/
def State.transact (s : State) : Transaction → State
  | .read off => (s.memRead off).2.respond (.readData (s.memRead off).1)
  | .write off d strb => (s.memWrite off d strb).respond .writeDone

/-- The transaction is a soft reset (R22), which may be the first reset after power-up (R112 step 1). -/
def Transaction.isSoftReset : Transaction → Bool
  | .read _ => false
  | .write off d strb => off == 0x008 && strb == 0b1111 && d.getLsbD 31

/-- Performs a transaction, which needs a specified state (R35) unless it makes one. -/
def performTransaction (t : Transaction) (s : State) : Host.Outcome State Fault Refusal :=
  if s.env.resetApplied || t.isSoftReset then .next (s.transact t) else .refused .resetNotApplied

end Sys2Proof.Machine
end

