-- ==== Sys2Proof/Machine/ModExp.lean ====
section
/-! DEFINITION. The meaning of `MODEXP`, the modular exponent (R87, R88). -/

namespace Sys2Proof.Machine

/-- `MODEXP rd, rs1, rs2`: `R[rd] <- R[rs1]^R[rs2] mod MOD`, the exponent not reduced (R87, R88). -/
def execModexp (rd rs1 rs2 : RegField) (s : State) : Host.Outcome State Fault Refusal :=
  .next (s.complete rd (checkedResult [rd, rs1, rs2] s.mod fun p =>
    powResult (s.readReg rs1).toNat (s.readReg rs2).toNat p))

end Sys2Proof.Machine
end

