-- ==== Sys2Proof/Machine/ModInv.lean ====
section
/-! DEFINITION. The meaning of `MODINV`, the modular inverse (R75, R76). -/

namespace Sys2Proof.Machine

/-- `MODINV rd, rs1`: `R[rd] <- R[rs1]^(-1) mod MOD`, or `NO_INVERSE` (R76). -/
def execModinv (rd rs1 : RegField) (s : State) : Host.Outcome State Fault Refusal :=
  .next (s.complete rd (checkedResult [rd, rs1] s.mod fun p => inverseResult (s.readReg rs1).toNat p))

end Sys2Proof.Machine
end

