-- ==== Sys2Proof/Machine/ModMul.lean ====
section
/-! DEFINITION. The meaning of `MODMUL`, the modular multiplier (R72, R73). -/

namespace Sys2Proof.Machine

/-- `MODMUL rd, rs1, rs2`: `R[rd] <- (R[rs1] · R[rs2]) mod MOD` (R73). -/
def execModmul (rd rs1 rs2 : RegField) (s : State) : Host.Outcome State Fault Refusal :=
  .next (s.complete rd (checkedResult [rd, rs1, rs2] s.mod fun p =>
    mulResult (s.readReg rs1).toNat (s.readReg rs2).toNat p))

end Sys2Proof.Machine
end

