-- ==== Sys2Proof/Machine/ModSqrt.lean ====
section
/-! DEFINITION. The meaning of `MODSQRT`, the modular square root (R80, R82). -/

namespace Sys2Proof.Machine

/-- `MODSQRT rd, rs1`: `R[rd] <-` the root `SqrtProc` gives, or `NON_RESIDUE` or `SQRT_FAIL` (R82). -/
def execModsqrt (rd rs1 : RegField) (s : State) : Host.Outcome State Fault Refusal :=
  .next (s.complete rd (checkedResult [rd, rs1] s.mod fun p => sqrtResult (s.readReg rs1).toNat p))

end Sys2Proof.Machine
end

