-- ==== Sys2Proof/Machine/Nop.lean ====
section
/-! DEFINITION. The meaning of `NOP` (R71). -/

namespace Sys2Proof.Machine

/-- `NOP`: succeeds with no result. It writes no operand register and does not read `MOD` (R67, R71). -/
def execNop (s : State) : Host.Outcome State Fault Refusal := .next (s.complete 0 .ok)

end Sys2Proof.Machine
end

