-- ==== Sys2Proof/Machine/Dispatch.lean ====
section
/-! DEFINITION. `exec`: the completion step of a decoded command, one arm for each constructor of `Instr` (R67, R68). -/

namespace Sys2Proof.Machine

def exec (i : Instr) (s : State) : Host.Outcome State Fault Refusal :=
  match i with
  | .nop => Sys2Proof.Machine.execNop s
  | .modmul rd rs1 rs2 => Sys2Proof.Machine.execModmul rd rs1 rs2 s
  | .modinv rd rs1 => Sys2Proof.Machine.execModinv rd rs1 s
  | .modsqrt rd rs1 => Sys2Proof.Machine.execModsqrt rd rs1 s
  | .modexp rd rs1 rs2 => Sys2Proof.Machine.execModexp rd rs1 rs2 s

end Sys2Proof.Machine
end

