-- ==== Sys2Proof/Machine/Engine.lean ====
section
/-! DEFINITION. The engine agent: its completion step decodes `LASTCMD` and runs the command (R6(b), R31, R67, R68). -/

namespace Sys2Proof.Machine

/-- `Complete()` (R68): `Execute(LASTCMD, R, MOD)` and its report. An illegal word ends with its error (R59). -/
def completeInFlight (s : State) : Host.Outcome State Fault Refusal :=
  match decode s.lastCmd with
  | .cmd i => exec i s
  | .illegalOpcode => .next (s.raiseError .illegalOpcode)
  | .illegalOperand => .next (s.raiseError .illegalOperand)

/-- The engine's turn: its step is enabled exactly while `BUSY` is 1 (R6, R68); otherwise nothing happens. -/
def engineTurn (s : State) : Host.Outcome State Fault Refusal :=
  if !s.env.resetApplied then .refused .resetNotApplied
  else if s.busy then completeInFlight s
  else .next s

end Sys2Proof.Machine
end

