-- ==== Sys2Proof/Machine/HostAgent.lean ====
section
/-! DEFINITION. The host agents: what a host script's statements mean, one bus transaction or one host statement a step
(R6(a), R62, R63). -/

namespace Sys2Proof.Machine

/-- The number of the host variable `$s`, which `WAIT` writes (R62). -/
def statusVar : Nat := 0

/-- The value of a host variable, if it has one. -/
def getVar (vars : List (Nat × Nat)) (v : Nat) : Option Nat :=
  match vars with
  | [] => none
  | (w, n) :: rest => if w = v then some n else getVar rest v

/-- Writes a host variable, and keeps the list by rising number. -/
def setVar (vars : List (Nat × Nat)) (v n : Nat) : List (Nat × Nat) :=
  match vars with
  | [] => [(v, n)]
  | (w, k) :: rest =>
    if v < w then (v, n) :: (w, k) :: rest
    else if v = w then (v, n) :: rest
    else (w, k) :: setVar rest v n

/-- The value of a host expression (R9, R10, R62): none where a variable has no value, a difference would go below 0, or a
divisor or a modulus is 0. -/
def HostExpr.eval (vars : List (Nat × Nat)) : HostExpr → Option Nat
  | .num n => some n
  | .var v => getVar vars v
  | .add a b => do return (← a.eval vars) + (← b.eval vars)
  | .sub a b => do
    let x ← a.eval vars
    let y ← b.eval vars
    if y ≤ x then some (x - y) else none
  | .mul a b => do return (← a.eval vars) * (← b.eval vars)
  | .div a b => do
    let x ← a.eval vars
    let y ← b.eval vars
    if y = 0 then none else some (x / y)
  | .mod a b => do
    let x ← a.eval vars
    let y ← b.eval vars
    if y = 0 then none else some (x % y)
  | .pow a e => do return (← a.eval vars) ^ (← e.eval vars)
  | .gcd a b => do return Nat.gcd (← a.eval vars) (← b.eval vars)
  | .powmod a e p => do
    let x ← a.eval vars
    let y ← e.eval vars
    let z ← p.eval vars
    if z = 0 then none else some (powMod x y z)
  | .band a b => do return (← a.eval vars) &&& (← b.eval vars)
  | .slice a hi lo => do
    let x ← a.eval vars
    if hi < lo then none else some (x / 2 ^ lo % 2 ^ (hi - lo + 1))

/-- Whether a condition holds (R62). -/
def HostCond.eval (vars : List (Nat × Nat)) : HostCond → Option Bool
  | .eq a b => do return decide ((← a.eval vars) = (← b.eval vars))
  | .ne a b => do return decide ((← a.eval vars) ≠ (← b.eval vars))
  | .lt a b => do return decide ((← a.eval vars) < (← b.eval vars))
  | .ge a b => do return decide ((← b.eval vars) ≤ (← a.eval vars))

/-- A full-word write, the only strobe a host statement uses (R62). -/
def fullWrite (off : Offset) (d : Word) : Transaction := .write off d 0b1111

/-- A natural as a value below `2^w`, if it is one. -/
def asBits (w n : Nat) : Option (BitVec w) := if n < 2 ^ w then some (BitVec.ofNat w n) else none

/-- The transactions a statement produces (R62, R63), one poll of a `WAIT` at a time. None where the statement is not
allowed: `N` or `d` without a value or too large, or a command that names a register outside `r0` to `r7` (R60). -/
def HostStmt.transactions (vars : List (Nat × Nat)) : HostStmt → Option (List Transaction)
  | .wr off d => do
    let w ← asBits 32 (← d.eval vars)
    return [fullWrite off w]
  | .rd off _ => some [.read off]
  | .ldbig x n => do
    let v ← asBits 2048 (← n.eval vars)
    return (List.range 64).map fun j => fullWrite (windowOffset x j) (wordOf v j)
  | .rdbig x _ => some ((List.range 64).map fun j => .read (windowOffset x j))
  | .cmd i => if i.wellFormed then some [fullWrite 0x010 (encode i)] else none
  | .wait => some [.read 0x00C]
  | .ack => some [fullWrite 0x00C 0x0000001E]
  | .ifGoto _ _ => some []
  | .goto _ => some []
  | .halt => some []
  | .assign _ _ => some []

/-- What a host does at its turn. -/
inductive HostMove where
  /-- Its script is over: it takes no step. -/
  | still
  /-- It executes a statement without a transaction. -/
  | internal (h : HostAgent)
  /-- It issues a transaction of its current statement. -/
  | issue (t : Transaction)
  /-- Its current statement is one the spec does not allow. -/
  | stuck
  deriving DecidableEq, Repr

/-- On to the next statement (R62). -/
def HostAgent.advance (h : HostAgent) : HostAgent := { h with hpc := h.hpc + 1, sub := 0, acc := 0 }

/-- On to the statement with this index (R62 `GOTO`). -/
def HostAgent.jump (h : HostAgent) (target : Nat) : HostAgent := { h with hpc := target, sub := 0, acc := 0 }

/-- `$v <- n`. -/
def HostAgent.setVar (h : HostAgent) (v n : Nat) : HostAgent :=
  { h with vars := Sys2Proof.Machine.setVar h.vars v n }

/-- The transaction a host's current statement issues next. -/
def HostAgent.nextTransaction (h : HostAgent) (st : HostStmt) : HostMove :=
  match st.transactions h.vars with
  | none => .stuck
  | some ts =>
    match ts[h.sub]? with
    | none => .stuck
    | some t => .issue t

/-- What a host does at its turn (R62). -/
def HostAgent.move (h : HostAgent) : HostMove :=
  if h.halted then .still
  else
    match h.script[h.hpc]? with
    | none => .still
    | some .halt => .internal { h with halted := true }
    | some (.goto l) => .internal (h.jump l)
    | some (.ifGoto c l) =>
      match c.eval h.vars with
      | none => .stuck
      | some b => .internal (if b then h.jump l else h.advance)
    | some (.assign v e) =>
      match e.eval h.vars with
      | none => .stuck
      | some n => .internal ((h.setVar v n).advance)
    | some st => h.nextTransaction st

/-- The word a response carries; a write carries none. -/
def Response.word : Response → Word
  | .none => 0
  | .readData d => d
  | .writeDone => 0

/-- What the word just read, with 63 others, adds to an `RDBIG`'s value (R62). -/
def HostAgent.gathered (h : HostAgent) (d : Word) : Nat := h.acc + d.toNat * 2 ^ wordShift h.sub

/-- The host after the transaction it issued has been performed (R62). -/
def HostAgent.receive (h : HostAgent) (r : Response) : HostAgent :=
  match h.script[h.hpc]? with
  | some (.rd _ v) => (h.setVar v r.word.toNat).advance
  | some .wait =>
    if r.word.getLsbD 0 then h.setVar statusVar r.word.toNat
    else (h.setVar statusVar r.word.toNat).advance
  | some (.ldbig _ _) => if h.sub < 63 then { h with sub := h.sub + 1 } else h.advance
  | some (.rdbig _ v) =>
    if h.sub < 63 then { h with sub := h.sub + 1, acc := h.gathered r.word }
    else (h.setVar v (h.gathered r.word)).advance
  | _ => h.advance

/-- Puts a host back in its place. -/
def State.setHost (s : State) (k : Nat) (h : HostAgent) : State :=
  { s with env := { s.env with hosts := s.env.hosts.set k h } }

/-- The turn of the host with place `k` (R6(a)). A place without a host, and a host whose script is over, take no step. -/
def hostTurn (k : Nat) (s : State) : Host.Outcome State Fault Refusal :=
  match s.env.hosts[k]? with
  | none => .next s
  | some h =>
    match h.move with
    | .still => .next s
    | .internal h' => .next (s.setHost k h')
    | .stuck => .fault .hostScript
    | .issue t =>
      match performTransaction t s with
      | .next s' => .next (s'.setHost k (h.receive s'.env.response))
      | .fault r => .fault r
      | .refused r => .refused r

end Sys2Proof.Machine
end

