-- ==== Sys2Proof/Machine/PortPins.lean ====
section
/-! DEFINITION. The pin interface: how the pins at the rising edges of `clk` become transactions and resets (R37, R109,
R110). -/

namespace Sys2Proof.Machine

/-- The transaction a request's pins stand for (R37). -/
def Pins.transaction (p : Pins) : Transaction :=
  if p.we then .write p.addr p.wdata p.wstrb else .read p.addr

/-- The pins of a request are held: `req`, `we` and `addr`, and for a write `wdata` and `wstrb` (R37; `wstrb` is ignored
for a read). -/
def Pins.holds (p q : Pins) : Bool :=
  p.req && p.we == q.we && p.addr == q.addr && (!p.we || (p.wdata == q.wdata && p.wstrb == q.wstrb))

/-- The request the port holds (R37). -/
def State.setRequest (s : State) (r : Option Pins) : State := { s with env := { s.env with request := r } }

/-- A reset through `rst_n` at transaction level (R109(a)). It falls between two transactions (R110). -/
def hardReset (s : State) : Host.Outcome State Fault Refusal :=
  match s.env.request with
  | some _ => .refused .transactionDuringReset
  | none => .next s.unitReset

/-- A rising edge of `clk` (R37). With `rst_n` at 0 it is a reset. A request starts at the first edge that sees `req`, and
is performed at a later edge, where the unit acknowledges it: `ack` is that choice (assumption log 8). -/
def clockEdge (p : Pins) (ack : Bool) (s : State) : Host.Outcome State Fault Refusal :=
  if !p.rstN then (if p.req then .refused .transactionDuringReset else hardReset s)
  else
    match s.env.request with
    | none => .next (s.setRequest (if p.req then some p else none))
    | some q =>
      if !p.holds q then .fault .busProtocol
      else if ack then performTransaction p.transaction (s.setRequest none)
      else .next s

/-- The `ack` output in the step just taken (R37). -/
def State.ackPin (s : State) : Bool :=
  match s.env.response with
  | .none => false
  | .readData _ => true
  | .writeDone => true

/-- The `rdata` output where it is valid: in the step where a read is acknowledged (R37). -/
def State.rdataPin (s : State) : Option Word :=
  match s.env.response with
  | .none => none
  | .readData d => some d
  | .writeDone => none

end Sys2Proof.Machine
end

