-- ==== Sys2Proof/Machine/Schedule.lean ====
section
/-! DEFINITION. Which agent moves next, and what each event does (R6, R48). -/

namespace Sys2Proof.Machine

/-- Removal and return of power (R108): the state is lost, and a reset is required before it is used again. What the registers
hold until then is unspecified (R35). The model leaves the old values in their fields, its choice (assumption log 7): no
transaction and no engine step reads them before a reset, and the `irq` output is a free value (`State.irqOutput`). -/
def powerCycle (s : State) : State :=
  { s with env := { s.env with request := none, resetApplied := false } }

/-- One event of the total order (R48). -/
def takeEvent (e : Event) (s : State) : Host.Outcome State Fault Refusal :=
  match e with
  | .bus t => performTransaction t s
  | .host k => hostTurn k s
  | .engine => engineTurn s
  | .edge p ack => clockEdge p ack s
  | .hardReset => hardReset s
  | .powerCycle => .next (powerCycle s)

/-- The state as the next step finds it: the events still to come after this one, and no answer on the port yet. -/
def State.begin (s : State) (rest : List Event) : State :=
  { s with env := { s.env with schedule := rest, response := .none } }

/-- The next step: the next event of the schedule. With none left the engine completes the command in flight, so that
every accepted command completes (R70; assumption log 3). -/
def nextStep (s : State) : Host.Outcome State Fault Refusal :=
  match s.env.schedule with
  | [] => engineTurn (s.begin [])
  | e :: rest => takeEvent e (s.begin rest)

/-- Places a command word where the engine takes its next command, with the engine's step next: the command in flight is
`LASTCMD` while `BUSY` is 1 (R31). Assumption log 1. -/
def State.placeCommand (s : State) (w : Word) : State :=
  { s with
    lastCmd := w
    busy := true
    env := { s.env with schedule := .engine :: s.env.schedule, resetApplied := true } }

end Sys2Proof.Machine
end

