-- ==== Sys2Proof/Machine/Step.lean ====
section
/-! DEFINITION. One step of the machine, and the placing of an instruction where the next step fetches it. -/

namespace Sys2Proof.Machine

/-- One step of the machine (R6, R48). -/
def step (s : State) : Host.Outcome State Fault Refusal := nextStep s

/-- `s` with the command word whose low `nbits` bits are `w` in flight, and the engine's step next (assumption log 1). -/
def State.withFetchWord (s : State) (nbits w : Nat) : State := s.placeCommand (BitVec.ofNat 32 (w % 2 ^ nbits))

end Sys2Proof.Machine
end

