-- ==== Sys2Proof/Machine/Assembler.lean ====
section
/-! DEFINITION. The assembler syntax of commands (R60, R61), over the characters of one line. -/

namespace Sys2Proof.Machine

/-- A register name: `r0` to `r7`, or `R0` to `R7` (R13, R60). -/
def registerName : List Char → Option RegField
  | [c, d] =>
    if (c == 'r' || c == 'R') && '0' ≤ d && d ≤ '7' then some (BitVec.ofNat 4 (d.toNat - '0'.toNat)) else none
  | _ => none

/-- Drops the white space at both ends. -/
def trimmed (cs : List Char) : List Char :=
  ((cs.dropWhile Char.isWhitespace).reverse.dropWhile Char.isWhitespace).reverse

/-- Splits at every comma. -/
def splitCommas : List Char → List (List Char)
  | [] => [[]]
  | c :: cs =>
    match splitCommas cs with
    | [] => [[c]]
    | part :: parts => if c == ',' then [] :: part :: parts else (c :: part) :: parts

/-- The operands of a command: none for blank text, else register names separated by commas (R60). -/
def operandNames (cs : List Char) : Option (List RegField) :=
  if (trimmed cs).isEmpty then some [] else (splitCommas cs).mapM fun part => registerName (trimmed part)

/-- The command a mnemonic in upper case and its operands stand for (R60, R61). An operand list of the wrong length is an
assembly error. -/
def commandNamed (mnemonic : List Char) (ops : List RegField) : Option Instr :=
  match ops with
  | [] => if mnemonic = ['N', 'O', 'P'] then some .nop else none
  | [rd, rs1] =>
    if mnemonic = ['M', 'O', 'D', 'I', 'N', 'V'] then some (.modinv rd rs1)
    else if mnemonic = ['M', 'O', 'D', 'S', 'Q', 'R', 'T'] then some (.modsqrt rd rs1)
    else if mnemonic = ['M', 'O', 'D', 'S', 'Q', 'R'] then some (modsqr rd rs1)
    else none
  | [rd, rs1, rs2] =>
    if mnemonic = ['M', 'O', 'D', 'M', 'U', 'L'] then some (.modmul rd rs1 rs2)
    else if mnemonic = ['M', 'O', 'D', 'E', 'X', 'P'] then some (.modexp rd rs1 rs2)
    else none
  | _ => none

/-- The command on one line of text: a mnemonic in any case, its operands, and a comment after `;` (R60). None is an
assembly error, which produces no word; a line without a command has none either. -/
def assemble (line : List Char) : Option Instr :=
  let text := trimmed (line.takeWhile (· ≠ ';'))
  let mnemonic := text.takeWhile fun c => !c.isWhitespace
  match operandNames (text.dropWhile fun c => !c.isWhitespace) with
  | none => none
  | some ops => commandNamed (mnemonic.map Char.toUpper) ops

/-- The word a line produces (R60, R63). -/
def assembleWord (line : List Char) : Option Word := (assemble line).map encode

/-! ## The text of a command -/

/-- How a register field is written: `r` and its number. A field of 8 to 15 gives a name outside `r0` to `r7` (R60). -/
def registerText (f : RegField) : List Char :=
  if f.toNat < 10 then ['r', Nat.digitChar f.toNat] else ['r', '1', Nat.digitChar (f.toNat - 10)]

/-- Operands separated by commas (R60). -/
def operandText : List RegField → List Char
  | [] => []
  | [f] => registerText f
  | f :: g :: fs => registerText f ++ ',' :: operandText (g :: fs)

/-- A mnemonic followed by its operands (R60). -/
def lineText (mnemonic : List Char) (ops : List RegField) : List Char := mnemonic ++ ' ' :: operandText ops

/-- The mnemonic of each command (R60). -/
def mnemonicText : Instr → List Char
  | .nop => ['N', 'O', 'P']
  | .modmul _ _ _ => ['M', 'O', 'D', 'M', 'U', 'L']
  | .modinv _ _ => ['M', 'O', 'D', 'I', 'N', 'V']
  | .modsqrt _ _ => ['M', 'O', 'D', 'S', 'Q', 'R', 'T']
  | .modexp _ _ _ => ['M', 'O', 'D', 'E', 'X', 'P']

/-- The line on which a command is written, destination first (R60). -/
def commandText (i : Instr) : List Char := lineText (mnemonicText i) i.fields

end Sys2Proof.Machine
end

