-- ==== Sys2Proof/Machine/HostReport.lean ====
section
/-! DEFINITION. What a host that follows DPPK's decryption takes from the unit (R78, R86, R94): the error kind it reports for
a command's end, and the two candidates it computes from a root. Nothing here is state of the unit. -/

namespace Sys2Proof.Machine

/-- The two of DPPK's error kinds that come from the unit's arithmetic (R94). -/
inductive DppkError where
  /-- `NoQuadraticResidue` (R86). -/
  | noQuadraticResidue
  /-- `SingularQuadratic` (R78). -/
  | singularQuadratic
  deriving DecidableEq, Repr

/-- The kind a host reports when this command, on the discriminant or on `2a mod p`, has ended in this state: by `ERRCODE`
5 of `MODSQRT` (R86) and 4 of `MODINV` (R78). Every other end is none of the two (R94). -/
def reportedError (i : Instr) (s : State) : Option DppkError :=
  match i with
  | .nop => none
  | .modmul _ _ _ => none
  | .modinv _ _ => if s.errCode = CmdError.noInverse.code then some .singularQuadratic else none
  | .modsqrt _ _ => if s.errCode = CmdError.nonResidue.code then some .noQuadraticResidue else none
  | .modexp _ _ _ => none

/-- `x1 = (-b - r)·inv2a` and `x2 = (-b + r)·inv2a` modulo `p`, in that order, for `b` and the root `r` at most `p` (R86). -/
def candidates (b r inv2a p : Nat) : Nat × Nat :=
  ((2 * p - (b + r)) % p * inv2a % p, (p - b + r) % p * inv2a % p)

end Sys2Proof.Machine
end

