-- ==== Sys2Proof/Safety.lean ====
section
/-! DEFINITION. The terms of the claims: what a command reads and writes, the flag invariants of R25, the launch premise of
R113, and when the engine moves next. -/

namespace Sys2Proof.Machine

/-- The register field a command names as its destination (R14, R55); `NOP` has none (R71). -/
def destination : Instr → Option RegField
  | .nop => none
  | .modmul rd _ _ => some rd
  | .modinv rd _ => some rd
  | .modsqrt rd _ => some rd
  | .modexp rd _ _ => some rd

/-- The register fields a command names as its sources (R57). -/
def sources : Instr → List RegField
  | .nop => []
  | .modmul _ rs1 rs2 => [rs1, rs2]
  | .modinv _ rs1 => [rs1]
  | .modsqrt _ rs1 => [rs1]
  | .modexp _ rs1 rs2 => [rs1, rs2]

/-- The natural a register holds (R8, R57). -/
def State.regNat (s : State) (f : RegField) : Nat := (s.readReg f).toNat

/-- `s` after a command has succeeded with the value `v` for `R[rd]` (R68): nothing else differs. -/
def State.succeeded (s : State) (rd : RegField) (v : Nat) : State :=
  { s with
    regs := s.regs.set (regSlot rd) (BitVec.ofNat 2048 v)
    done := true
    errCode := 0
    busy := false }

/-- `s` after a command has failed with this code (R68, R92): nothing else differs. -/
def State.failed (s : State) (code : BitVec 4) : State := { s with err := true, errCode := code, busy := false }

/-- The invariants of R25 on a state: (a) at most one of `BUSY`, `DONE`, `ERR`; (b) `ERRCODE ≠ 0` exactly when `ERR = 1`;
(c) `ERRCODE` is one of 0 to 6. -/
abbrev State.FlagsWf (s : State) : Prop :=
  (¬(s.busy = true ∧ s.done = true) ∧ ¬(s.busy = true ∧ s.err = true) ∧ ¬(s.done = true ∧ s.err = true)) ∧
    (s.errCode ≠ 0 ↔ s.err = true) ∧ s.errCode.toNat ≤ 6

/-- The flag invariants where the spec specifies the state: once a reset has been applied (R25, R35, R108). -/
abbrev State.FlagsInv (s : State) : Prop := s.env.resetApplied = true → s.FlagsWf

/-- The launch premise (R113): the reset state, changed only by writes to `CTRL` and to windows. -/
abbrev State.Launch (s : State) : Prop :=
  s.env.resetApplied = true ∧ s.busy = false ∧ s.done = false ∧ s.err = false ∧ s.drop = false ∧ s.accErr = false ∧
    s.errCode = 0 ∧ s.lastCmd = 0

/-- The engine moves next: its step is the next event, or no event is left (assumption log 3); `rest` is what comes after. -/
abbrev State.EngineNext (s : State) (rest : List Event) : Prop :=
  s.env.schedule = .engine :: rest ∨ (s.env.schedule = [] ∧ rest = [])

end Sys2Proof.Machine
end

