-- ==== Sys2Proof/Certificates/Slice0/Obligations.lean ====
section
/-! DEFINITION. The statements for the provers, from the spec's numbered rules. Each docstring names the rules. -/

open Sys2Proof Sys2Proof.Machine

/-! ## Encoding (30_encoding.md) -/

/-- R58, R59: the examples of R58 and the word of `NOP`, written out from the encoding, decode to their commands. -/
def Obligations.ExampleWordsDecode : Prop :=
  decode 0x00000000 = .cmd .nop ∧
  decode 0x01201000 = .cmd (.modmul 2 0 1) ∧
  decode 0x02100000 = .cmd (.modinv 1 0) ∧
  decode 0x03330000 = .cmd (.modsqrt 3 3) ∧
  decode 0x04765000 = .cmd (.modexp 7 6 5) ∧
  decode 0x01801000 = .illegalOperand ∧
  decode 0x07F00ABC = .illegalOpcode

/-- R58, R59: decoding the encoding of a well-formed command gives the command, for every command and every operand. -/
def Obligations.EncodeThenDecode : Prop :=
  ∀ i : Instr, i.wellFormed = true → decode (encode i) = .cmd i

/-- R58, R59: a word that decodes to a command is the encoding of that command, which is well-formed; so no bit of a legal
word is ignored. -/
def Obligations.DecodeThenEncode : Prop :=
  ∀ (w : Word) (i : Instr), decode w = .cmd i → i.wellFormed = true ∧ encode i = w

/-- R58: a word is the command in a row of the opcode table exactly when `(w & mask) = match`. -/
def Obligations.DecoderAgreesWithOpcodeTable : Prop :=
  ∀ w : Word,
    (decode w = .cmd .nop ↔ w &&& 0xFFFFFFFF = 0x00000000) ∧
    ((∃ rd rs1 rs2, decode w = .cmd (.modmul rd rs1 rs2)) ↔ w &&& 0xFF888FFF = 0x01000000) ∧
    ((∃ rd rs1, decode w = .cmd (.modinv rd rs1)) ↔ w &&& 0xFF88FFFF = 0x02000000) ∧
    ((∃ rd rs1, decode w = .cmd (.modsqrt rd rs1)) ↔ w &&& 0xFF88FFFF = 0x03000000) ∧
    ((∃ rd rs1 rs2, decode w = .cmd (.modexp rd rs1 rs2)) ↔ w &&& 0xFF888FFF = 0x04000000)

/-- R59, R90: `ILLEGAL_OPCODE` exactly for `OPC` of 0x05 or more; every other word that is no command is
`ILLEGAL_OPERAND`. -/
def Obligations.IllegalVerdicts : Prop :=
  ∀ w : Word,
    (decode w = .illegalOpcode ↔ 5 ≤ w.toNat / 2 ^ 24) ∧
    (decode w = .illegalOperand ↔ w.toNat / 2 ^ 24 < 5 ∧ ∀ i : Instr, i.wellFormed = true → encode i ≠ w)

/-- R60: a line of text that assembles to a command names only `r0` to `r7`. -/
def Obligations.AssembledCommandsAreWellFormed : Prop :=
  ∀ (line : List Char) (i : Instr), assemble line = some i → i.wellFormed = true

/-- R60: the line on which a well-formed command is written, its mnemonic and the names of its registers, assembles to that
command and its word, also in lower case, in upper case and with a comment behind it. With a register name outside `r0` to
`r7` the line is an assembly error. How white space is read is the model's choice (assumption log 14). -/
def Obligations.CommandTextAssembles : Prop :=
  ∀ (i : Instr) (comment : List Char),
    (i.wellFormed = true →
      assemble (commandText i) = some i ∧ assembleWord (commandText i) = some (encode i) ∧
      assemble ((commandText i).map Char.toLower) = some i ∧ assemble ((commandText i).map Char.toUpper) = some i ∧
      assemble (commandText i ++ ';' :: comment) = some i) ∧
    (i.wellFormed = false → assemble (commandText i) = none)

/-- R60, R61: `MODSQR rd, rs` assembles to its `MODMUL`; a mnemonic with an operand list of the wrong length is an assembly
error. -/
def Obligations.PseudoCommandAndWrongLengths : Prop :=
  (∀ rd rs : RegField, namesRegister rd = true → namesRegister rs = true →
    assemble (lineText ['M', 'O', 'D', 'S', 'Q', 'R'] [rd, rs]) = some (.modmul rd rs rs)) ∧
  ∀ ops : List RegField, ops.all namesRegister = true →
    (∀ i : Instr, ops.length ≠ i.fields.length → assemble (lineText (mnemonicText i) ops) = none) ∧
    (ops.length ≠ 2 → assemble (lineText ['M', 'O', 'D', 'S', 'Q', 'R'] ops) = none)

/-- R61: `MODSQR rd, rs` has the encoding the rule gives and that word decodes to `MODMUL rd, rs, rs`; on a valid modulus it
completes with the square in `rd` and the flags of a success (R58, R68, R73). -/
def Obligations.PseudoCommandSquares : Prop :=
  ∀ (rd rs : RegField) (s : State), namesRegister rd = true → namesRegister rs = true →
    encode (modsqr rd rs) =
      0x01000000 ||| rd.setWidth 32 <<< 20 ||| rs.setWidth 32 <<< 16 ||| rs.setWidth 32 <<< 12 ∧
    decode (encode (modsqr rd rs)) = .cmd (.modmul rd rs rs) ∧
    (s.mod.toNat % 2 = 1 → 3 ≤ s.mod.toNat →
      exec (modsqr rd rs) s = .next (s.succeeded rd (s.regNat rs ^ 2 % s.mod.toNat)))

/-! ## The commands (40 to 44) -/

/-- R67, R68, R31: when the engine moves next and `LASTCMD` decodes to a command, the step is the command's meaning on the
state with that event taken off the schedule. How the schedule says that the engine moves next is the model's choice
(assumption log 2, 3). -/
def Obligations.StepRunsDecodedCommand : Prop :=
  ∀ (s : State) (i : Instr) (rest : List Event), s.env.resetApplied = true → s.busy = true → s.EngineNext rest →
    decode s.lastCmd = .cmd i → step s = exec i (s.begin rest)

/-- R59, R68, R95: an illegal word in flight ends with its error and writes no register, whatever `MOD` holds. The schedule is
the model's choice (assumption log 2, 3). -/
def Obligations.IllegalWordEndsWithItsError : Prop :=
  ∀ (s : State) (rest : List Event), s.env.resetApplied = true → s.busy = true → s.EngineNext rest →
    (decode s.lastCmd = .illegalOpcode → step s = .next ((s.begin rest).failed 1)) ∧
    (decode s.lastCmd = .illegalOperand → step s = .next ((s.begin rest).failed 2))

/-- R71: `NOP` succeeds in every state, also while `MODOK` is 0, and changes `DONE`, `ERRCODE` and `BUSY` only. -/
def Obligations.NopSucceeds : Prop :=
  ∀ s : State, exec .nop s = .next { s with done := true, errCode := 0, busy := false }

/-- R72: `MODMUL` writes the unique natural below `p` that is congruent to the exact product of its two operands, and
changes nothing else but the flags. -/
def Obligations.ModmulWritesReducedProduct : Prop :=
  ∀ (s : State) (rd rs1 rs2 : RegField),
    namesRegister rd = true → namesRegister rs1 = true → namesRegister rs2 = true →
    s.mod.toNat % 2 = 1 → 3 ≤ s.mod.toNat →
    ∃ v : Nat, v < s.mod.toNat ∧ v ≡ s.regNat rs1 * s.regNat rs2 [MOD s.mod.toNat] ∧
      (∀ u, u < s.mod.toNat → u ≡ s.regNat rs1 * s.regNat rs2 [MOD s.mod.toNat] → u = v) ∧
      exec (.modmul rd rs1 rs2) s = .next (s.succeeded rd v)

/-- R75: with `a' = a mod p`, `MODINV` writes the unique `y` in `[1, p-1]` with `a'·y ≡ 1` when `gcd(a', p) = 1`; otherwise
it fails with `NO_INVERSE` (4). Reducing first does not change the gcd, `a ≡ 0` has no inverse, and for a prime `p` nothing
else is without one. -/
def Obligations.ModinvWritesInverseOrFails : Prop :=
  ∀ (s : State) (rd rs1 : RegField), namesRegister rd = true → namesRegister rs1 = true →
    s.mod.toNat % 2 = 1 → 3 ≤ s.mod.toNat →
    (Nat.gcd (s.regNat rs1 % s.mod.toNat) s.mod.toNat = 1 →
      ∃ y : Nat, 1 ≤ y ∧ y ≤ s.mod.toNat - 1 ∧ (s.regNat rs1 % s.mod.toNat) * y ≡ 1 [MOD s.mod.toNat] ∧
        (∀ u, 1 ≤ u → u ≤ s.mod.toNat - 1 → (s.regNat rs1 % s.mod.toNat) * u ≡ 1 [MOD s.mod.toNat] → u = y) ∧
        exec (.modinv rd rs1) s = .next (s.succeeded rd y)) ∧
    (Nat.gcd (s.regNat rs1 % s.mod.toNat) s.mod.toNat ≠ 1 →
      (¬∃ y : Nat, (s.regNat rs1 % s.mod.toNat) * y ≡ 1 [MOD s.mod.toNat]) ∧
      exec (.modinv rd rs1) s = .next (s.failed 4)) ∧
    Nat.gcd (s.regNat rs1 % s.mod.toNat) s.mod.toNat = Nat.gcd (s.regNat rs1) s.mod.toNat ∧
    (s.regNat rs1 % s.mod.toNat = 0 → Nat.gcd (s.regNat rs1 % s.mod.toNat) s.mod.toNat ≠ 1) ∧
    (s.mod.toNat.Prime →
      (Nat.gcd (s.regNat rs1 % s.mod.toNat) s.mod.toNat = 1 ↔ s.regNat rs1 % s.mod.toNat ≠ 0))

/-- R79, R80, R81(a) to (d): for an odd prime modulus `MODSQRT` writes 0 for a multiple of `p`, fails with `NON_RESIDUE` (5)
for a non-residue, and for a nonzero residue writes the canonical root, the one root in `[1, (p-1)/2]`, when
`a'^q ≡ 1` for the odd part `q` of `p - 1` or when some non-residue is at most `Z_MAX`. R81(e), a prime whose least
non-residue is above `Z_MAX`, is not stated here. -/
def Obligations.ModsqrtPrimeWritesCanonicalRoot : Prop :=
  ∀ (s : State) (rd rs1 : RegField), namesRegister rd = true → namesRegister rs1 = true →
    s.mod.toNat.Prime → s.mod.toNat % 2 = 1 →
    (s.regNat rs1 % s.mod.toNat = 0 → exec (.modsqrt rd rs1) s = .next (s.succeeded rd 0)) ∧
    (¬IsSquare (s.regNat rs1 : ZMod s.mod.toNat) → exec (.modsqrt rd rs1) s = .next (s.failed 5)) ∧
    (s.regNat rs1 % s.mod.toNat ≠ 0 → IsSquare (s.regNat rs1 : ZMod s.mod.toNat) →
      ((∃ q k : Nat, q % 2 = 1 ∧ q * 2 ^ k = s.mod.toNat - 1 ∧ s.regNat rs1 ^ q % s.mod.toNat = 1) ∨
        (∃ z : Nat, 2 ≤ z ∧ z ≤ 2 ^ 24 ∧ ¬IsSquare (z : ZMod s.mod.toNat))) →
      ∃ r : Nat, 1 ≤ r ∧ r ≤ (s.mod.toNat - 1) / 2 ∧ r * r ≡ s.regNat rs1 [MOD s.mod.toNat] ∧
        (∀ u, 1 ≤ u → u ≤ (s.mod.toNat - 1) / 2 → u * u ≡ s.regNat rs1 [MOD s.mod.toNat] → u = r) ∧
        exec (.modsqrt rd rs1) s = .next (s.succeeded rd r))

/-- R83: for every valid modulus, prime or composite, `MODSQRT` writes a verified root that is at most `(p-1)/2`, or fails
with `NON_RESIDUE` (5) or `SQRT_FAIL` (6). -/
def Obligations.ModsqrtRootIsVerified : Prop :=
  ∀ (s : State) (rd rs1 : RegField), namesRegister rd = true → namesRegister rs1 = true →
    s.mod.toNat % 2 = 1 → 3 ≤ s.mod.toNat →
    (∃ r : Nat, r ≤ (s.mod.toNat - 1) / 2 ∧ r * r ≡ s.regNat rs1 [MOD s.mod.toNat] ∧
      exec (.modsqrt rd rs1) s = .next (s.succeeded rd r)) ∨
    exec (.modsqrt rd rs1) s = .next (s.failed 5) ∨
    exec (.modsqrt rd rs1) s = .next (s.failed 6)

/-- R87: `MODEXP` writes `x^e mod p` for the whole 2048-bit exponent, which is not reduced. -/
def Obligations.ModexpWritesPower : Prop :=
  ∀ (s : State) (rd rs1 rs2 : RegField),
    namesRegister rd = true → namesRegister rs1 = true → namesRegister rs2 = true →
    s.mod.toNat % 2 = 1 → 3 ≤ s.mod.toNat →
    exec (.modexp rd rs1 rs2) s = .next (s.succeeded rd (s.regNat rs1 ^ s.regNat rs2 % s.mod.toNat)) ∧
    (s.regNat rs2 = 0 → s.regNat rs1 ^ s.regNat rs2 % s.mod.toNat = 1)

/-- R78: for an odd prime modulus, `MODINV` on `2a mod p` completes, and a host reports `SingularQuadratic` for its end exactly
when `a` is a multiple of `p`, which is exactly when `ERRCODE` is 4. -/
def Obligations.SingularQuadraticReported : Prop :=
  ∀ (s : State) (rd rs1 : RegField) (a : Nat), namesRegister rd = true → namesRegister rs1 = true →
    s.mod.toNat.Prime → s.mod.toNat % 2 = 1 → s.regNat rs1 = 2 * a % s.mod.toNat →
    ∃ t : State, exec (.modinv rd rs1) s = .next t ∧
      (reportedError (.modinv rd rs1) t = some .singularQuadratic ↔ a % s.mod.toNat = 0) ∧
      (t.errCode = 4 ↔ a % s.mod.toNat = 0)

/-- R86: for an odd prime modulus, a host reports `NoQuadraticResidue` for the end of `MODSQRT` on `D` exactly when `D` has no
square root, which is exactly when `ERRCODE` is 5. A root that is written is the canonical one, so the order of the two
candidates is fixed, and with the other root `p - r` they would only change places. -/
def Obligations.NoQuadraticResidueReported : Prop :=
  ∀ (s : State) (rd rs1 : RegField), namesRegister rd = true → namesRegister rs1 = true →
    s.mod.toNat.Prime → s.mod.toNat % 2 = 1 →
    ∃ t : State, exec (.modsqrt rd rs1) s = .next t ∧
      (reportedError (.modsqrt rd rs1) t = some .noQuadraticResidue ↔ ¬IsSquare (s.regNat rs1 : ZMod s.mod.toNat)) ∧
      (t.errCode = 5 ↔ ¬IsSquare (s.regNat rs1 : ZMod s.mod.toNat)) ∧
      (t.errCode = 0 → t.regNat rd ≤ (s.mod.toNat - 1) / 2 ∧
        t.regNat rd * t.regNat rd ≡ s.regNat rs1 [MOD s.mod.toNat] ∧
        ∀ b inv2a, b ≤ s.mod.toNat →
          candidates b (s.mod.toNat - t.regNat rd) inv2a s.mod.toNat =
            (candidates b (t.regNat rd) inv2a s.mod.toNat).swap)

/-- R69: every arithmetic command fails with `BAD_MODULUS` (3) when `MOD` is even or below 3, and none fails so
otherwise. -/
def Obligations.BadModulusExactlyWhenInvalid : Prop :=
  ∀ (s : State) (i : Instr), i.wellFormed = true → i ≠ .nop →
    ((s.mod.toNat % 2 = 0 ∨ s.mod.toNat < 3) → exec i s = .next (s.failed 3)) ∧
    (¬(s.mod.toNat % 2 = 0 ∨ s.mod.toNat < 3) → ∃ t : State, exec i s = .next t ∧ t.errCode ≠ 3)

/-- R56, R90, R95: a command with a register field of 8 to 15 ends with `ILLEGAL_OPERAND` (2), whatever `MOD` holds, as the
word with those fields does. No word decodes to such a command: that it has this meaning of its own is the model's choice
(assumption log 4). -/
def Obligations.FieldOutsideFileIsIllegalOperand : Prop :=
  ∀ (s : State) (i : Instr), i.wellFormed = false → exec i s = .next (s.failed 2) ∧ ∀ w, decode w ≠ .cmd i

/-- R14: a command changes no register but its destination, and none of `MOD`, `CTRL`, `DROP`, `ACCERR`, `LASTCMD` and the
environment (R17, R92, R93). -/
def Obligations.CommandFrame : Prop :=
  ∀ (i : Instr) (s t : State), exec i s = .next t →
    t.mod = s.mod ∧ t.ieDone = s.ieDone ∧ t.ieErr = s.ieErr ∧ t.drop = s.drop ∧ t.accErr = s.accErr ∧
    t.lastCmd = s.lastCmd ∧ t.env = s.env ∧
    ∀ k : Fin 8, (∀ d, destination i = some d → regSlot d ≠ k) → t.regs[k] = s.regs[k]

/-- R4, R15: the value a command writes is a canonical residue, below `MOD`. -/
def Obligations.WrittenValueIsBelowModulus : Prop :=
  ∀ (i : Instr) (s t : State) (d : RegField), exec i s = .next t → destination i = some d → t.err = false →
    t.regNat d < s.mod.toNat

/-- R7, R30: a command's outcome is the same in two states that agree on `MOD` and on its sources: the same error code, and
the same result where there is one. -/
def Obligations.OutcomeDependsOnlyOnOperands : Prop :=
  ∀ (i : Instr) (s₁ s₂ t₁ t₂ : State), s₁.mod = s₂.mod → (∀ f ∈ sources i, s₁.readReg f = s₂.readReg f) →
    exec i s₁ = .next t₁ → exec i s₂ = .next t₂ →
    t₁.errCode = t₂.errCode ∧ t₁.busy = t₂.busy ∧
      (t₁.errCode = 0 → ∀ d, destination i = some d → t₁.readReg d = t₂.readReg d)

/-! ## Completion, errors and the flags (40, 60) -/

/-- R70, R90: whatever the word in flight, the engine's step completes it: `BUSY` falls, and either `DONE` is 1 with code 0
or `ERR` is 1 with a code of 1 to 6. The schedule is the model's choice (assumption log 2, 3). -/
def Obligations.EveryCommandInFlightCompletes : Prop :=
  ∀ (s : State) (rest : List Event), s.env.resetApplied = true → s.busy = true → s.EngineNext rest →
    ∃ t : State, step s = .next t ∧ t.busy = false ∧
      ((t.done = true ∧ t.errCode = 0) ∨ (t.err = true ∧ 1 ≤ t.errCode.toNat ∧ t.errCode.toNat ≤ 6))

/-- R92: a command in flight that fails changes only `BUSY`, `ERR` and `ERRCODE`. -/
def Obligations.FailedCommandIsPrecise : Prop :=
  ∀ s t : State, s.busy = true → s.err = false → completeInFlight s = .next t → t.err = true → t = s.failed t.errCode

/-- R64: a full-word write to `CMD` sets `DROP` and nothing else while `BUSY` or `ERR` is 1; otherwise it is accepted. -/
def Obligations.CmdWriteAcceptsOrRefuses : Prop :=
  ∀ (s : State) (d : Word),
    ((s.busy = true ∨ s.err = true) →
      s.transact (.write 0x010 d 0b1111) = ({ s with drop := true }).respond .writeDone) ∧
    (¬(s.busy = true ∨ s.err = true) →
      s.transact (.write 0x010 d 0b1111) =
        ({ s with lastCmd := d, done := false, busy := true }).respond .writeDone)

/-- R26, R91: in every state a read of `CMD` returns `LASTCMD` and changes nothing. It is the last accepted word: an accepted
write is read back at once, a refused one leaves the word before it, and the completion of the command in flight, also a
failed one, leaves that command. After reset it is 0. -/
def Obligations.CmdReadsLastAcceptedWord : Prop :=
  (State.reset.memRead 0x010).1 = 0 ∧
  ∀ (s : State) (d : Word),
    s.memRead 0x010 = (s.lastCmd, s) ∧
    (¬(s.busy = true ∨ s.err = true) → ((s.transact (.write 0x010 d 0b1111)).memRead 0x010).1 = d) ∧
    ((s.busy = true ∨ s.err = true) →
      ((s.transact (.write 0x010 d 0b1111)).memRead 0x010).1 = (s.memRead 0x010).1) ∧
    ∃ t : State, completeInFlight s = .next t ∧ (t.memRead 0x010).1 = (s.memRead 0x010).1

/-- R66, R100: after an error every command is refused until a host writes 1 to `STATUS[2]`, and is accepted then. -/
def Obligations.ErrorBlocksUntilAcknowledged : Prop :=
  ∀ (s : State) (d ackWord : Word), s.busy = false → s.err = true → ackWord.getLsbD 2 = true →
    (s.transact (.write 0x010 d 0b1111)).busy = false ∧
    (s.transact (.write 0x010 d 0b1111)).lastCmd = s.lastCmd ∧
    (s.transact (.write 0x00C ackWord 0b1111)).errCode = 0 ∧
    ((s.transact (.write 0x00C ackWord 0b1111)).transact (.write 0x010 d 0b1111)).busy = true ∧
    ((s.transact (.write 0x00C ackWord 0b1111)).transact (.write 0x010 d 0b1111)).lastCmd = d

/-- R24: a write to `STATUS` acts on each W1C bit separately and changes nothing else, whatever `BUSY` is. -/
def Obligations.StatusWriteClearsFlags : Prop :=
  ∀ (s : State) (d : Word), ∃ t : State, s.transact (.write 0x00C d 0b1111) = t.respond .writeDone ∧
    t.done = (if d.getLsbD 1 then false else s.done) ∧
    t.err = (if d.getLsbD 2 then false else s.err) ∧
    t.errCode = (if d.getLsbD 2 then 0 else s.errCode) ∧
    t.drop = (if d.getLsbD 3 then false else s.drop) ∧
    t.accErr = (if d.getLsbD 4 then false else s.accErr) ∧
    t = { s with done := t.done, err := t.err, errCode := t.errCode, drop := t.drop, accErr := t.accErr }

/-- R21: a write to `CTRL` with bit 31 clear sets the two enables and nothing else, and `CTRL` reads them back with every
other bit 0. -/
def Obligations.CtrlWriteSetsEnables : Prop :=
  ∀ (s : State) (d : Word), d.getLsbD 31 = false →
    s.transact (.write 0x008 d 0b1111) =
      ({ s with ieDone := d.getLsbD 0, ieErr := d.getLsbD 1 }).respond .writeDone ∧
    ((s.transact (.write 0x008 d 0b1111)).memRead 0x008).1 = d &&& 3

/-- R29, R97, R98: once a reset has been applied, the level on the platform's line is the enabled flags: clearing an enable
masks its sources without clearing a flag, and setting it while a flag is 1 raises the line at once. That the state shows
whether a reset has been applied is the model's choice (assumption log 7). -/
def Obligations.InterruptOutput : Prop :=
  ∀ (s : State) (d : Word), s.env.resetApplied = true → d.getLsbD 31 = false →
    s.irqOutput.2 = ((s.done && s.ieDone) || ((s.err || s.drop || s.accErr) && s.ieErr)) ∧
    (s.transact (.write 0x008 d 0b1111)).irqOutput.2 =
      ((s.done && d.getLsbD 0) || ((s.err || s.drop || s.accErr) && d.getLsbD 1))

/-- R29: the `irq` level and `STATUS.IRQ` are the enabled flags, in every state. -/
def Obligations.InterruptLevel : Prop :=
  ∀ s : State,
    s.irq = ((s.done && s.ieDone) || ((s.err || s.drop || s.accErr) && s.ieErr)) ∧
    (s.memRead 0x00C).1.getLsbD 5 = s.irq

/-- R23, R18: what each of the 32 bits of `STATUS` reads; `MODOK` is 1 exactly when `MOD` is odd and at least 3. -/
def Obligations.StatusWordLayout : Prop :=
  ∀ s : State, ∃ w, s.memRead 0x00C = (w, s) ∧
    w.getLsbD 0 = s.busy ∧ w.getLsbD 1 = s.done ∧ w.getLsbD 2 = s.err ∧ w.getLsbD 3 = s.drop ∧ w.getLsbD 4 = s.accErr ∧
    w.getLsbD 5 = s.irq ∧
    (w.getLsbD 6 = true ↔ s.mod.toNat % 2 = 1 ∧ 3 ≤ s.mod.toNat) ∧ w.getLsbD 7 = false ∧
    w.extractLsb' 8 4 = s.errCode ∧ w.extractLsb' 12 20 = 0

/-- R25: every step keeps the flag invariants of specified states, under every schedule. After a loss of power nothing is said
of the flags until a reset (R35, R108). That the state shows whether a reset has been applied, and what may happen until
then, is the model's choice (assumption log 7). -/
def Obligations.StepKeepsFlagInvariants : Prop :=
  ∀ s t : State, s.FlagsInv → step s = .next t → t.FlagsInv

/-- R25, R34: the reset state is specified and has the flag invariants. -/
def Obligations.ResetHasFlagInvariants : Prop := State.reset.env.resetApplied = true ∧ State.reset.FlagsWf

/-- R25: the flag invariants hold in every state reachable from reset, for all hosts and every order of events, but for the
states between a loss of power and the next reset, which the spec leaves unspecified (R35, R108; assumption log 7). -/
def Obligations.ReachableStatesHaveFlagInvariants : Prop :=
  ∀ (e : Env) (n : Nat) (t : State), Sys2Proof.core.run n { State.reset with env := e } = .next t →
    t.env.resetApplied = true → t.FlagsWf

/-! ## The command in flight and the order of events (10, 20, 40) -/

/-- R31, R45, R51, R65: no transaction but a soft reset changes the command in flight, its operands or `MOD`. -/
def Obligations.InFlightCommandIsUndisturbed : Prop :=
  ∀ (s : State) (tr : Transaction), s.busy = true → tr.isSoftReset = false →
    (s.transact tr).busy = true ∧ (s.transact tr).lastCmd = s.lastCmd ∧ (s.transact tr).regs = s.regs ∧
      (s.transact tr).mod = s.mod

/-- R31, R48, R70, R123: however many transactions come between a command's acceptance and its completion, and whichever
they are but a soft reset, the command completes with the registers and the error code it would have given at once. The
schedule is the model's choice (assumption log 2). -/
def Obligations.ResultIndependentOfSchedule : Prop :=
  ∀ (s : State) (trs : List Transaction) (rest : List Event), s.env.resetApplied = true → s.busy = true →
    (∀ tr ∈ trs, tr.isSoftReset = false) → s.env.schedule = trs.map .bus ++ .engine :: rest →
    ∃ t u : State, Sys2Proof.core.run (trs.length + 1) s = .next t ∧ completeInFlight s = .next u ∧
      t.busy = false ∧ t.regs = u.regs ∧ t.mod = u.mod ∧ t.errCode = u.errCode ∧ t.lastCmd = u.lastCmd

/-! ## Register interface (10, 20) -/

/-- R38, R43: while the unit is idle, a word written to a window is read back, every other word of every window reads as
before, and no flag, enable or `LASTCMD` changes. -/
def Obligations.WindowWriteThenRead : Prop :=
  ∀ (s : State) (x : BigReg) (j : Nat) (d : Word), s.busy = false → j ≤ 63 →
    ∃ t : State, s.transact (.write (windowOffset x j) d 0b1111) = t.respond .writeDone ∧
      t.memRead (windowOffset x j) = (d, t) ∧
      (∀ y i, i ≤ 63 → (y ≠ x ∨ i ≠ j) →
        (t.memRead (windowOffset y i)).1 = (s.memRead (windowOffset y i)).1) ∧
      t = { s with regs := t.regs, mod := t.mod }

/-- R38: a register is the sum of its 64 words, word j standing at offset `base + 4j` with weight `2^(32(63-j))`: the most
significant word is at the lowest offset. -/
def Obligations.WindowIsBigEndian : Prop :=
  ∀ (s : State) (x : BigReg), s.busy = false →
    (s.readBig x).toNat =
      ((List.range 64).map fun j =>
        (s.memRead (BitVec.ofNat 12 (windowBase x + 4 * j))).1.toNat * 2 ^ (32 * (63 - j))).sum

/-- R45: while `BUSY` is 1 every window read returns 0 and every window write is discarded, both set `ACCERR`, and the
registers outside the windows stay accessible. -/
def Obligations.BusyBlocksWindows : Prop :=
  ∀ (s : State) (x : BigReg) (j : Nat) (d : Word), s.busy = true → j ≤ 63 →
    s.memRead (windowOffset x j) = (0, { s with accErr := true }) ∧
    s.memWrite (windowOffset x j) d 0b1111 = { s with accErr := true } ∧
    s.memRead 0x000 = (0x44504B4D, s) ∧ s.memRead 0x004 = (0x00010000, s) ∧ s.memRead 0x018 = (0x18080800, s) ∧
    s.memRead 0x008 = (s.ctrlWord, s) ∧ s.memRead 0x00C = (s.statusWord, s) ∧ s.memRead 0x010 = (s.lastCmd, s) ∧
    s.memWrite 0x008 d 0b1111 = s.ctrlWrite d ∧ s.memWrite 0x00C d 0b1111 = s.statusWrite d ∧
    s.memWrite 0x010 d 0b1111 = s.cmdWrite d

/-- R41: a misaligned read returns 0, a misaligned write changes nothing, and both set `ACCERR`. -/
def Obligations.MisalignedAccessOnlySetsAccerr : Prop :=
  ∀ (s : State) (off : Offset) (d : Word) (strb : Strobe), off.toNat % 4 ≠ 0 →
    s.memRead off = (0, { s with accErr := true }) ∧ s.memWrite off d strb = { s with accErr := true }

/-- R40: a write whose strobe is not `0b1111` changes nothing and sets `ACCERR`. -/
def Obligations.PartialWriteOnlySetsAccerr : Prop :=
  ∀ (s : State) (off : Offset) (d : Word) (strb : Strobe), strb ≠ 0b1111 →
    s.memWrite off d strb = { s with accErr := true }

/-- R20, R27, R28: the reserved offsets read 0 and ignore writes, the identification registers read their constants and
ignore writes; the accesses that are not allowed set `ACCERR`. -/
def Obligations.ReservedAndReadOnlyOffsets : Prop :=
  ∀ (s : State) (off : Offset) (d : Word), off.toNat % 4 = 0 →
    ((off = 0x014 ∨ (0x01C ≤ off.toNat ∧ off.toNat ≤ 0x0FC) ∨ 0xA00 ≤ off.toNat) →
      s.memRead off = (0, { s with accErr := true }) ∧ s.memWrite off d 0b1111 = { s with accErr := true }) ∧
    ((off = 0x000 ∨ off = 0x004 ∨ off = 0x018) →
      s.memRead off = (if off = 0x000 then 0x44504B4D else if off = 0x004 then 0x00010000 else 0x18080800, s) ∧
      s.memWrite off d 0b1111 = { s with accErr := true })

/-- R46: a read changes nothing but `ACCERR`, and that only when it is misaligned, reads a reserved offset, or reads a window
while `BUSY` is 1. -/
def Obligations.ReadSideEffects : Prop :=
  ∀ (s : State) (off : Offset),
    ((off.toNat % 4 ≠ 0 ∨ target off = .reserved ∨ (s.busy = true ∧ ∃ x j, target off = .window x j)) →
      s.memRead off = (0, { s with accErr := true })) ∧
    (¬(off.toNat % 4 ≠ 0 ∨ target off = .reserved ∨ (s.busy = true ∧ ∃ x j, target off = .window x j)) →
      (s.memRead off).2 = s)

/-- R47, R99: once a reset has been applied, every transaction completes normally, with an answer on the port. That the model
holds whether a reset has been applied is its choice (assumption log 7). -/
def Obligations.EveryTransactionCompletes : Prop :=
  ∀ (s : State) (tr : Transaction) (rest : List Event), s.env.resetApplied = true →
    s.env.schedule = .bus tr :: rest →
    step s = .next ((s.begin rest).transact tr) ∧ ((s.begin rest).transact tr).ackPin = true

/-! ## Reset and launch (70) -/

/-- R34: every piece of state after reset. -/
def Obligations.ResetStateValues : Prop :=
  (∀ k : Fin 8, State.reset.regs[k] = 0) ∧ State.reset.mod = 0 ∧ State.reset.modOk = false ∧
  (State.reset.memRead 0x008).1 = 0 ∧ (State.reset.memRead 0x00C).1 = 0 ∧ (State.reset.memRead 0x010).1 = 0 ∧
  State.reset.irq = false ∧ State.reset.busy = false ∧
  (State.reset.memRead 0x000).1 = 0x44504B4D ∧ (State.reset.memRead 0x004).1 = 0x00010000 ∧
  (State.reset.memRead 0x018).1 = 0x18080800

/-- R109, R22: a clock edge with `rst_n` at 0, a reset at transaction level, and a write to `CTRL` with bit 31 set all give
the reset state, whatever the unit was doing. What is outside the unit stays: the model's choice (assumption log 5). -/
def Obligations.EveryResetGivesResetState : Prop :=
  ∀ (s : State) (e : Event) (rest : List Event), s.env.schedule = e :: rest → s.env.request = none →
    (e = .hardReset ∨ (∃ p ack, e = .edge p ack ∧ p.rstN = false ∧ p.req = false) ∨
      (∃ d : Word, e = .bus (.write 0x008 d 0b1111) ∧ d.getLsbD 31 = true)) →
    ∃ t : State, step s = .next t ∧ t = { State.reset with env := t.env } ∧ t.irq = false ∧
      t.env.resetApplied = true ∧ t.env.schedule = rest ∧ t.env.hosts = s.env.hosts

/-- The model's choice (assumption log 7) for R35, R108, R112: while no reset has been applied, the engine and every
transaction that is not a soft reset are refused, whether it comes at transaction level, from a scripted host or through the
pins; a loss of power leads back there, and drops a request held on the port. A soft reset and a host's own statements are
not refused, and this says nothing of them. -/
def Obligations.NothingRunsBeforeReset : Prop :=
  ∀ (s : State) (rest : List Event),
    (s.env.resetApplied = false →
      (s.EngineNext rest → step s = .refused .resetNotApplied) ∧
      (∀ tr, s.env.schedule = .bus tr :: rest → tr.isSoftReset = false → step s = .refused .resetNotApplied) ∧
      (∀ k h tr, s.env.schedule = .host k :: rest → s.env.hosts[k]? = some h → h.move = .issue tr →
        tr.isSoftReset = false → step s = .refused .resetNotApplied) ∧
      (∀ p q, s.env.schedule = .edge p true :: rest → p.rstN = true → s.env.request = some q → p.holds q = true →
        p.transaction.isSoftReset = false → step s = .refused .resetNotApplied)) ∧
    (s.env.schedule = .powerCycle :: rest →
      ∃ t : State, step s = .next t ∧ t.env.resetApplied = false ∧ t.env.request = none ∧ t.env.schedule = rest ∧
        t.env.hosts = s.env.hosts)

/-- R110: a transaction that overlaps an assertion of `rst_n` is refused. How edges show it is the model's choice (assumption
log 8). -/
def Obligations.TransactionDuringResetIsRefused : Prop :=
  ∀ (s : State) (p : Pins) (ack : Bool) (rest : List Event), s.env.schedule = .edge p ack :: rest → p.rstN = false →
    (p.req = true ∨ s.env.request.isSome = true) → step s = .refused .transactionDuringReset

/-- R37: a request that starts at one clock edge, is held and is acknowledged at the next has the effect of its transaction
at the second edge, and no effect on the unit at the first. At which edges a request starts and is acknowledged is the
model's choice (assumption log 8). -/
def Obligations.PinRequestPerformsTransaction : Prop :=
  ∀ (s : State) (p : Pins) (ack : Bool) (rest : List Event), s.env.resetApplied = true → s.env.request = none →
    p.rstN = true → p.req = true → s.env.schedule = .edge p ack :: .edge p true :: rest →
    ∃ t : State, step s = .next t ∧ t = { s with env := t.env } ∧ t.ackPin = false ∧
      step t = .next (((s.begin rest).transact
        (if p.we then .write p.addr p.wdata p.wstrb else .read p.addr)))

/-- R113: a write to `CTRL` without a soft reset, or to a window, keeps the launch premise, and `State.reset` has it. The premise
holds the model's own field for an applied reset (assumption log 7). -/
def Obligations.LaunchPremiseKept : Prop :=
  State.reset.Launch ∧
  ∀ (s : State) (d : Word) (x : BigReg) (j : Nat), s.Launch → j ≤ 63 →
    (d.getLsbD 31 = false → (s.transact (.write 0x008 d 0b1111)).Launch) ∧
    (s.transact (.write (windowOffset x j) d 0b1111)).Launch

/-! ## Host scripts (30_encoding.md R62). How a host holds its place is the model's choice (assumption log 11). -/

/-- R62: on an idle unit the 64 steps of `LDBIG X, N` load `N` into `X`, change no other register and no flag, and take the
host to its next statement. The host's own fields are the model's choice (assumption log 11). -/
def Obligations.LoadStatementLoadsRegister : Prop :=
  ∀ (s : State) (h : HostAgent) (others : List HostAgent) (x : BigReg) (e : HostExpr) (n : Nat) (rest : List Event),
    s.env.resetApplied = true → s.busy = false → s.env.hosts = h :: others →
    s.env.schedule = List.replicate 64 (.host 0) ++ rest →
    h.halted = false → h.sub = 0 → h.script[h.hpc]? = some (.ldbig x e) → e.eval h.vars = some n → n < 2 ^ 2048 →
    ∃ t : State, Sys2Proof.core.run 64 s = .next t ∧ t.readBig x = BitVec.ofNat 2048 n ∧
      (∀ y, y ≠ x → t.readBig y = s.readBig y) ∧ t = { s with regs := t.regs, mod := t.mod, env := t.env } ∧
      t.env.hosts = h.advance :: others ∧ t.env.schedule = rest

/-- R62: on an idle unit the 64 steps of `RDBIG X -> $v` give `$v` the value of `X`, change nothing of the unit, and take the
host to its next statement. The host's own fields are the model's choice (assumption log 11). -/
def Obligations.ReadStatementReadsRegister : Prop :=
  ∀ (s : State) (h : HostAgent) (others : List HostAgent) (x : BigReg) (v : Nat) (rest : List Event),
    s.env.resetApplied = true → s.busy = false → s.env.hosts = h :: others →
    s.env.schedule = List.replicate 64 (.host 0) ++ rest →
    h.halted = false → h.sub = 0 → h.acc = 0 → h.script[h.hpc]? = some (.rdbig x v) →
    ∃ t : State, Sys2Proof.core.run 64 s = .next t ∧ t = { s with env := t.env } ∧
      t.env.hosts = (h.setVar v (s.readBig x).toNat).advance :: others ∧ t.env.schedule = rest

/-- R62, R63, R64: `CMD <command>` on an idle unit without an error puts the command's encoding in flight. The host's own fields are the model's choice (assumption log 11). -/
def Obligations.CommandStatementIssuesEncoding : Prop :=
  ∀ (s : State) (h : HostAgent) (others : List HostAgent) (i : Instr) (rest : List Event),
    s.env.resetApplied = true → s.busy = false → s.err = false → s.env.hosts = h :: others →
    s.env.schedule = .host 0 :: rest → h.halted = false → h.sub = 0 → h.script[h.hpc]? = some (.cmd i) →
    i.wellFormed = true →
    ∃ t : State, step s = .next t ∧ t = { s with lastCmd := encode i, busy := true, done := false, env := t.env } ∧
      t.env.hosts = h.advance :: others

/-- R62: `WAIT` reads `STATUS` into `$s`, and goes on to the next statement exactly when `BUSY` was 0. The host's own
fields are the model's choice (assumption log 11). -/
def Obligations.WaitStatementPollsBusy : Prop :=
  ∀ (s : State) (h : HostAgent) (others : List HostAgent) (rest : List Event),
    s.env.resetApplied = true → s.env.hosts = h :: others → s.env.schedule = .host 0 :: rest →
    h.halted = false → h.sub = 0 → h.script[h.hpc]? = some .wait →
    ∃ t : State, step s = .next t ∧ t = { s with env := t.env } ∧
      t.env.hosts = (if s.busy then h.setVar statusVar s.statusWord.toNat
        else (h.setVar statusVar s.statusWord.toNat).advance) :: others

/-- R62, R125: a host's own statements make no transaction: they move the host and leave the unit as it was. The host's own
fields are the model's choice (assumption log 11). -/
def Obligations.HostOwnStatementsLeaveUnitAlone : Prop :=
  ∀ (s : State) (h : HostAgent) (others : List HostAgent) (rest : List Event),
    s.env.hosts = h :: others → s.env.schedule = .host 0 :: rest → h.halted = false →
    (h.script[h.hpc]? = some .halt →
      step s = .next ({ s with env := { s.env with schedule := rest, response := .none, hosts := { h with halted := true } :: others } })) ∧
    (∀ l, h.script[h.hpc]? = some (.goto l) →
      step s = .next ({ s with env := { s.env with schedule := rest, response := .none, hosts := h.jump l :: others } })) ∧
    (∀ c l b, h.script[h.hpc]? = some (.ifGoto c l) → c.eval h.vars = some b →
      step s = .next ({ s with env := { s.env with schedule := rest, response := .none, hosts := (if b then h.jump l else h.advance) :: others } })) ∧
    (∀ v e n, h.script[h.hpc]? = some (.assign v e) → e.eval h.vars = some n →
      step s = .next ({ s with env := { s.env with schedule := rest, response := .none, hosts := (h.setVar v n).advance :: others } }))
end

