-- ==== Sys2Proof/Laws/Arith.lean ====
section
/-! SUPPORT. What the arithmetic of Machine/Arith.lean computes: `powMod` is `a^e mod p` (R10), `inverseMod` is the inverse
(R75), `oddPart` splits off the power of 2 (R80 step 3), and no loop stops for want of rounds. -/

namespace Sys2Proof.Machine

/-! ## Exponentiation -/

theorem powModSteps_eq (n b e p : Nat) (h : e < 2 ^ n) : powModSteps n b e p = b ^ e % p := by
  induction n generalizing b e with
  | zero =>
    have : e = 0 := by simpa using h
    simp [powModSteps, this]
  | succ n ih =>
    have half : e / 2 < 2 ^ n := by rw [pow_succ] at h; omega
    have square : (b * b % p) ^ (e / 2) % p = b ^ (2 * (e / 2)) % p := by
      rw [← Nat.pow_mod, pow_mul, pow_two]
    rw [powModSteps]
    split
    next e0 => simp [e0]
    next =>
      split
      next odd =>
        rw [ih _ _ half, square, Nat.mod_mul_mod, ← pow_succ]
        congr 2; omega
      next even =>
        rw [ih _ _ half, square]
        congr 2; omega

/-- `powmod(a, e, p)` is `a^e mod p` (R10). -/
theorem powMod_eq (a e p : Nat) : powMod a e p = a ^ e % p := by
  rw [powMod, powModSteps_eq _ _ _ _ Nat.lt_log2_self, ← Nat.pow_mod]

theorem powMod_lt {p : Nat} (a e : Nat) (h : 0 < p) : powMod a e p < p := by
  rw [powMod_eq]; exact Nat.mod_lt _ h

/-! ## The inverse -/

/-- The Euclid loop keeps `r0 ≡ t0·a` and `r1 ≡ t1·a` modulo `p`, so it ends at a coefficient `t` with
`gcd(r0, r1) ≡ t·a`. -/
theorem euclidSteps_spec (n a p : Nat) (hp : 0 < p) (r0 r1 t0 t1 : Nat) (hn : r1 < n)
    (h0 : r0 ≡ t0 * a [MOD p]) (h1 : r1 ≡ t1 * a [MOD p]) :
    Nat.gcd r0 r1 ≡ euclidSteps n r0 r1 t0 t1 p * a [MOD p] := by
  induction n generalizing r0 r1 t0 t1 with
  | zero => omega
  | succ n ih =>
    rw [euclidSteps]
    split
    next r10 => simpa [r10] using h0
    next r10 =>
      have pos : 0 < r1 := Nat.pos_of_ne_zero r10
      rw [← Nat.gcd_comm, Nat.gcd_rec, Nat.gcd_comm]
      refine ih r1 (r0 % r1) t1 _ (by have := Nat.mod_lt r0 pos; omega) h1 ?_
      generalize hq : r0 / r1 = q
      have split0 : r0 % r1 + q * r1 = r0 := by rw [← hq, Nat.mul_comm]; exact Nat.mod_add_div r0 r1
      have cancel : (t0 + (p - q * t1 % p)) % p + q * t1 ≡ t0 [MOD p] := by
        have lt : q * t1 % p ≤ p := (Nat.mod_lt _ hp).le
        calc (t0 + (p - q * t1 % p)) % p + q * t1
            ≡ t0 + (p - q * t1 % p) + q * t1 % p [MOD p] :=
              (Nat.mod_modEq _ _).add (Nat.mod_modEq _ _).symm
          _ = t0 + p := by omega
          _ ≡ t0 [MOD p] := by simp [Nat.ModEq]
      have qr1 : q * r1 ≡ q * t1 * a [MOD p] := by
        rw [Nat.mul_assoc]; exact h1.mul_left q
      have total : r0 % r1 + q * r1 ≡ (t0 + (p - q * t1 % p)) % p * a + q * t1 * a [MOD p] := by
        rw [split0, ← Nat.add_mul]
        exact h0.trans (cancel.symm.mul_right a)
      exact Nat.ModEq.add_right_cancel qr1 total

theorem euclidSteps_lt (n p : Nat) (hp : 0 < p) (r0 r1 t0 t1 : Nat) (h0 : t0 < p) (h1 : t1 < p) :
    euclidSteps n r0 r1 t0 t1 p < p := by
  induction n generalizing r0 r1 t0 t1 with
  | zero => exact h0
  | succ n ih =>
    rw [euclidSteps]
    split
    · exact h0
    · exact ih _ _ _ _ h1 (Nat.mod_lt _ hp)

/-- The inverse law (R75): for `a < p` with `gcd(a, p) = 1` and `p ≥ 2`, `inverseMod a p` lies in `[1, p-1]` and its
product with `a` is 1 modulo `p`. -/
theorem inverseMod_spec {a p : Nat} (hp : 2 ≤ p) (h : Nat.gcd a p = 1) :
    1 ≤ inverseMod a p ∧ inverseMod a p ≤ p - 1 ∧ a * inverseMod a p % p = 1 := by
  have g : Nat.gcd p a ≡ inverseMod a p * a [MOD p] :=
    euclidSteps_spec (a + 1) a p (by omega) p a 0 1 (by omega) (by simp [Nat.ModEq]) (by simp [Nat.ModEq])
  rw [Nat.gcd_comm, h] at g
  have one : a * inverseMod a p % p = 1 := by
    rw [Nat.mul_comm, ← g, Nat.mod_eq_of_lt (by omega)]
  have lt : inverseMod a p < p := euclidSteps_lt _ p (by omega) _ _ _ _ (by omega) (by omega)
  refine ⟨Nat.pos_of_ne_zero fun z => ?_, by omega, one⟩
  simp [z] at one

/-- The inverse is unique in `[1, p-1]` (R75). -/
theorem inverse_unique {a p x y : Nat} (hx : x ≤ p - 1) (hy : y ≤ p - 1) (hp : 2 ≤ p)
    (ax : a * x % p = 1) (ay : a * y % p = 1) : x = y := by
  have hax : a * x ≡ 1 [MOD p] := by rw [Nat.ModEq, ax, Nat.mod_eq_of_lt (by omega)]
  have hay : a * y ≡ 1 [MOD p] := by rw [Nat.ModEq, ay, Nat.mod_eq_of_lt (by omega)]
  have key : x ≡ y [MOD p] :=
    calc x = x * 1 := (Nat.mul_one x).symm
      _ ≡ x * (a * y) [MOD p] := hay.symm.mul_left x
      _ = a * x * y := by ring
      _ ≡ 1 * y [MOD p] := hax.mul_right y
      _ = y := Nat.one_mul y
  exact key.eq_of_lt_of_lt (by omega) (by omega)

/-! ## The odd part -/

theorem splitTwos_spec (k n s : Nat) (hn : 0 < n) (hk : n < 2 ^ k) :
    (splitTwos k n s).1 % 2 = 1 ∧ s ≤ (splitTwos k n s).2 ∧
      (splitTwos k n s).1 * 2 ^ (splitTwos k n s).2 = n * 2 ^ s := by
  induction k generalizing n s with
  | zero => simp at hk; omega
  | succ k ih =>
    rw [splitTwos]
    split
    next even =>
      obtain ⟨odd, le, prod⟩ := ih (n / 2) (s + 1) (by omega) (by rw [pow_succ] at hk; omega)
      refine ⟨odd, by omega, ?_⟩
      rw [prod, pow_succ, ← Nat.mul_assoc, Nat.mul_right_comm, Nat.div_mul_cancel (Nat.dvd_of_mod_eq_zero even)]
    next odd => exact ⟨by simp; omega, le_rfl, rfl⟩

/-- `n = q·2^s` with `q` odd (R80 step 3). -/
theorem oddPart_spec {n : Nat} (hn : 0 < n) :
    (oddPart n).1 % 2 = 1 ∧ (oddPart n).1 * 2 ^ (oddPart n).2 = n := by
  obtain ⟨odd, -, prod⟩ := splitTwos_spec (n.log2 + 1) n 0 hn Nat.lt_log2_self
  rw [pow_zero, Nat.mul_one] at prod
  exact ⟨odd, prod⟩

/-- `s ≥ 1` for an even `n` (R80 step 3). -/
theorem oddPart_exponent_pos {n : Nat} (hn : 0 < n) (even : n % 2 = 0) : 1 ≤ (oddPart n).2 := by
  obtain ⟨odd, prod⟩ := oddPart_spec hn
  refine Nat.pos_of_ne_zero fun z => ?_
  rw [z, pow_zero, Nat.mul_one] at prod
  omega

/-! ## The square root -/

/-- Steps 6 and 7 of R80: what is returned is verified, canonical and reduced. -/
theorem finishRoot_okValue {a r p v : Nat} (hp : p % 2 = 1) (hr : r < p) (h : finishRoot a r p = .okValue v) :
    v * v % p = a ∧ v ≤ (p - 1) / 2 := by
  rw [finishRoot] at h
  split at h
  next => simp at h
  next verified =>
    push Not at verified
    split at h <;> cases h
    next big =>
      refine ⟨?_, by omega⟩
      have sq : (p - r) * (p - r) + 2 * r * p = r * r + p * p := by
        obtain ⟨d, rfl⟩ := Nat.exists_eq_add_of_le hr.le
        rw [Nat.add_sub_cancel_left]; ring
      calc (p - r) * (p - r) % p = ((p - r) * (p - r) + 2 * r * p) % p := by simp
        _ = r * r % p := by rw [sq]; simp
        _ = a := verified
    next small => exact ⟨verified, by omega⟩

theorem tonelliLoop_lt (k m c t r p v : Nat) (hp : 0 < p) (hr : r < p) (h : tonelliLoop k m c t r p = some v) :
    v < p := by
  induction k generalizing m c t r with
  | zero => simp [tonelliLoop] at h
  | succ k ih =>
    rw [tonelliLoop] at h
    split at h
    · cases h; exact hr
    · split at h
      · cases h
      · exact ih _ _ _ _ (Nat.mod_lt _ hp) h

/-- A root that `SqrtProc` returns is verified and canonical, for every odd modulus (R83). -/
theorem sqrtProc_okValue {a p v : Nat} (hp : p % 2 = 1) (h : sqrtProc a p = .okValue v) :
    v * v % p = a % p ∧ v ≤ (p - 1) / 2 := by
  have pos : 0 < p := by omega
  rw [sqrtProc] at h
  split at h
  next zero => cases h; simp [zero]
  next =>
    split at h
    · simp at h
    · split at h
      · simp at h
      · rw [sqrtAfterEuler] at h
        split at h
        · exact finishRoot_okValue hp (powMod_lt _ _ pos) h
        · split at h
          · simp at h
          · split at h
            · simp at h
            · next root found =>
              exact finishRoot_okValue hp (tonelliLoop_lt _ _ _ _ _ _ _ pos (powMod_lt _ _ pos) found) h

/-- The outcomes of `SqrtProc` are a root, `NON_RESIDUE` and `SQRT_FAIL` (R83). -/
theorem sqrtProc_cases (a p : Nat) :
    (∃ v, sqrtProc a p = .okValue v) ∨ sqrtProc a p = .fail .nonResidue ∨ sqrtProc a p = .fail .sqrtFail := by
  have finish : ∀ a r, (∃ v, finishRoot a r p = .okValue v) ∨ finishRoot a r p = .fail .sqrtFail := by
    intro a r
    rw [finishRoot]
    split
    · exact .inr rfl
    · split <;> exact .inl ⟨_, rfl⟩
  have after : (∃ v, sqrtAfterEuler (a % p) p = .okValue v) ∨ sqrtAfterEuler (a % p) p = .fail .sqrtFail := by
    rw [sqrtAfterEuler]
    split
    · exact finish _ _
    · split
      · exact .inr rfl
      · split
        · exact .inr rfl
        · exact finish _ _
  rw [sqrtProc]
  split
  · exact .inl ⟨_, rfl⟩
  · split
    · exact .inr (.inl rfl)
    · split
      · exact .inr (.inr rfl)
      · exact after.elim .inl fun h => .inr (.inr h)

/-- The search of R80 step 4 never stops for want of rounds: with `zMax` rounds from 2 on it sees every candidate. -/
theorem findNonResidue_rounds (k extra z h p : Nat) (enough : Config.zMax + 1 < z + k) (hk : 0 < k) :
    findNonResidue (k + extra) z h p = findNonResidue k z h p := by
  induction k generalizing z with
  | zero => omega
  | succ k ih =>
    rw [Nat.add_right_comm, findNonResidue, findNonResidue]
    split
    · rfl
    · next inside =>
      split
      · rfl
      · split
        · rfl
        · push Not at inside
          have := inside.1
          exact ih (z + 1) (by omega) (by omega)

/-- What `leastOrder` finds is the least exponent of R80 step 5. -/
theorem leastOrder_eq_some {t m p i : Nat} (h : leastOrder t m p = some i) :
    1 ≤ i ∧ i ≤ m - 1 ∧ powMod t (2 ^ i) p = 1 ∧ ∀ j, 1 ≤ j → j < i → powMod t (2 ^ j) p ≠ 1 := by
  rw [leastOrder, List.find?_range'_eq_some] at h
  simp only [List.mem_range'_1, beq_iff_eq, Bool.not_eq_eq_eq_not, Bool.not_true, beq_eq_false_iff_ne] at h
  exact ⟨h.2.1.1, by omega, h.1, fun j j1 ji => h.2.2 j j1 ji⟩

/-- `leastOrder` finds an exponent when there is one. -/
theorem leastOrder_isSome {t m p i : Nat} (i1 : 1 ≤ i) (im : i ≤ m - 1) (h : powMod t (2 ^ i) p = 1) :
    ∃ j, leastOrder t m p = some j := by
  rw [← Option.isSome_iff_exists, leastOrder, List.find?_isSome]
  exact ⟨i, List.mem_range'_1.2 ⟨i1, by omega⟩, by simp [h]⟩

/-- The rounds of R80 step 5 never stop for want of `k`: `m` strictly decreases. -/
theorem tonelliLoop_rounds (k extra m c t r p : Nat) (enough : m ≤ k) (hk : 0 < k) :
    tonelliLoop (k + extra) m c t r p = tonelliLoop k m c t r p := by
  induction k generalizing m c t r with
  | zero => omega
  | succ k ih =>
    rw [Nat.add_right_comm, tonelliLoop, tonelliLoop]
    split
    · rfl
    · split
      · rfl
      · next i found =>
        have ⟨i1, im, _⟩ := leastOrder_eq_some found
        exact ih _ _ _ _ (by omega) (by omega)

end Sys2Proof.Machine
end

