-- ==== Sys2Proof/Laws/State.lean ====
section
/-! SUPPORT. One lemma for each field under each update of the state, so that no proof unfolds an update. -/

namespace Sys2Proof.Machine

@[simp] theorem State.writeReg_regs (s : State) (f : RegField) (v : Operand) : (s.writeReg f v).regs = s.regs.set (regSlot f) v := rfl
@[simp] theorem State.writeReg_mod (s : State) (f : RegField) (v : Operand) : (s.writeReg f v).mod = s.mod := rfl
@[simp] theorem State.writeReg_ieDone (s : State) (f : RegField) (v : Operand) : (s.writeReg f v).ieDone = s.ieDone := rfl
@[simp] theorem State.writeReg_ieErr (s : State) (f : RegField) (v : Operand) : (s.writeReg f v).ieErr = s.ieErr := rfl
@[simp] theorem State.writeReg_busy (s : State) (f : RegField) (v : Operand) : (s.writeReg f v).busy = s.busy := rfl
@[simp] theorem State.writeReg_done (s : State) (f : RegField) (v : Operand) : (s.writeReg f v).done = s.done := rfl
@[simp] theorem State.writeReg_err (s : State) (f : RegField) (v : Operand) : (s.writeReg f v).err = s.err := rfl
@[simp] theorem State.writeReg_drop (s : State) (f : RegField) (v : Operand) : (s.writeReg f v).drop = s.drop := rfl
@[simp] theorem State.writeReg_accErr (s : State) (f : RegField) (v : Operand) : (s.writeReg f v).accErr = s.accErr := rfl
@[simp] theorem State.writeReg_errCode (s : State) (f : RegField) (v : Operand) : (s.writeReg f v).errCode = s.errCode := rfl
@[simp] theorem State.writeReg_lastCmd (s : State) (f : RegField) (v : Operand) : (s.writeReg f v).lastCmd = s.lastCmd := rfl
@[simp] theorem State.writeReg_env (s : State) (f : RegField) (v : Operand) : (s.writeReg f v).env = s.env := rfl

@[simp] theorem State.writeBig_ieDone (s : State) (x : BigReg) (v : Operand) : (s.writeBig x v).ieDone = s.ieDone := by cases x <;> rfl
@[simp] theorem State.writeBig_ieErr (s : State) (x : BigReg) (v : Operand) : (s.writeBig x v).ieErr = s.ieErr := by cases x <;> rfl
@[simp] theorem State.writeBig_busy (s : State) (x : BigReg) (v : Operand) : (s.writeBig x v).busy = s.busy := by cases x <;> rfl
@[simp] theorem State.writeBig_done (s : State) (x : BigReg) (v : Operand) : (s.writeBig x v).done = s.done := by cases x <;> rfl
@[simp] theorem State.writeBig_err (s : State) (x : BigReg) (v : Operand) : (s.writeBig x v).err = s.err := by cases x <;> rfl
@[simp] theorem State.writeBig_drop (s : State) (x : BigReg) (v : Operand) : (s.writeBig x v).drop = s.drop := by cases x <;> rfl
@[simp] theorem State.writeBig_accErr (s : State) (x : BigReg) (v : Operand) : (s.writeBig x v).accErr = s.accErr := by cases x <;> rfl
@[simp] theorem State.writeBig_errCode (s : State) (x : BigReg) (v : Operand) : (s.writeBig x v).errCode = s.errCode := by cases x <;> rfl
@[simp] theorem State.writeBig_lastCmd (s : State) (x : BigReg) (v : Operand) : (s.writeBig x v).lastCmd = s.lastCmd := by cases x <;> rfl
@[simp] theorem State.writeBig_env (s : State) (x : BigReg) (v : Operand) : (s.writeBig x v).env = s.env := by cases x <;> rfl

@[simp] theorem State.reportSuccess_regs (s : State) : (s.reportSuccess).regs = s.regs := rfl
@[simp] theorem State.reportSuccess_mod (s : State) : (s.reportSuccess).mod = s.mod := rfl
@[simp] theorem State.reportSuccess_ieDone (s : State) : (s.reportSuccess).ieDone = s.ieDone := rfl
@[simp] theorem State.reportSuccess_ieErr (s : State) : (s.reportSuccess).ieErr = s.ieErr := rfl
@[simp] theorem State.reportSuccess_busy (s : State) : (s.reportSuccess).busy = false := rfl
@[simp] theorem State.reportSuccess_done (s : State) : (s.reportSuccess).done = true := rfl
@[simp] theorem State.reportSuccess_err (s : State) : (s.reportSuccess).err = s.err := rfl
@[simp] theorem State.reportSuccess_drop (s : State) : (s.reportSuccess).drop = s.drop := rfl
@[simp] theorem State.reportSuccess_accErr (s : State) : (s.reportSuccess).accErr = s.accErr := rfl
@[simp] theorem State.reportSuccess_errCode (s : State) : (s.reportSuccess).errCode = 0 := rfl
@[simp] theorem State.reportSuccess_lastCmd (s : State) : (s.reportSuccess).lastCmd = s.lastCmd := rfl
@[simp] theorem State.reportSuccess_env (s : State) : (s.reportSuccess).env = s.env := rfl

@[simp] theorem State.raiseError_regs (s : State) (e : CmdError) : (s.raiseError e).regs = s.regs := rfl
@[simp] theorem State.raiseError_mod (s : State) (e : CmdError) : (s.raiseError e).mod = s.mod := rfl
@[simp] theorem State.raiseError_ieDone (s : State) (e : CmdError) : (s.raiseError e).ieDone = s.ieDone := rfl
@[simp] theorem State.raiseError_ieErr (s : State) (e : CmdError) : (s.raiseError e).ieErr = s.ieErr := rfl
@[simp] theorem State.raiseError_busy (s : State) (e : CmdError) : (s.raiseError e).busy = false := rfl
@[simp] theorem State.raiseError_done (s : State) (e : CmdError) : (s.raiseError e).done = s.done := rfl
@[simp] theorem State.raiseError_err (s : State) (e : CmdError) : (s.raiseError e).err = true := rfl
@[simp] theorem State.raiseError_drop (s : State) (e : CmdError) : (s.raiseError e).drop = s.drop := rfl
@[simp] theorem State.raiseError_accErr (s : State) (e : CmdError) : (s.raiseError e).accErr = s.accErr := rfl
@[simp] theorem State.raiseError_errCode (s : State) (e : CmdError) : (s.raiseError e).errCode = e.code := rfl
@[simp] theorem State.raiseError_lastCmd (s : State) (e : CmdError) : (s.raiseError e).lastCmd = s.lastCmd := rfl
@[simp] theorem State.raiseError_env (s : State) (e : CmdError) : (s.raiseError e).env = s.env := rfl

@[simp] theorem State.accessError_regs (s : State) : (s.accessError).regs = s.regs := rfl
@[simp] theorem State.accessError_mod (s : State) : (s.accessError).mod = s.mod := rfl
@[simp] theorem State.accessError_ieDone (s : State) : (s.accessError).ieDone = s.ieDone := rfl
@[simp] theorem State.accessError_ieErr (s : State) : (s.accessError).ieErr = s.ieErr := rfl
@[simp] theorem State.accessError_busy (s : State) : (s.accessError).busy = s.busy := rfl
@[simp] theorem State.accessError_done (s : State) : (s.accessError).done = s.done := rfl
@[simp] theorem State.accessError_err (s : State) : (s.accessError).err = s.err := rfl
@[simp] theorem State.accessError_drop (s : State) : (s.accessError).drop = s.drop := rfl
@[simp] theorem State.accessError_accErr (s : State) : (s.accessError).accErr = true := rfl
@[simp] theorem State.accessError_errCode (s : State) : (s.accessError).errCode = s.errCode := rfl
@[simp] theorem State.accessError_lastCmd (s : State) : (s.accessError).lastCmd = s.lastCmd := rfl
@[simp] theorem State.accessError_env (s : State) : (s.accessError).env = s.env := rfl

@[simp] theorem State.respond_regs (s : State) (r : Response) : (s.respond r).regs = s.regs := rfl
@[simp] theorem State.respond_mod (s : State) (r : Response) : (s.respond r).mod = s.mod := rfl
@[simp] theorem State.respond_ieDone (s : State) (r : Response) : (s.respond r).ieDone = s.ieDone := rfl
@[simp] theorem State.respond_ieErr (s : State) (r : Response) : (s.respond r).ieErr = s.ieErr := rfl
@[simp] theorem State.respond_busy (s : State) (r : Response) : (s.respond r).busy = s.busy := rfl
@[simp] theorem State.respond_done (s : State) (r : Response) : (s.respond r).done = s.done := rfl
@[simp] theorem State.respond_err (s : State) (r : Response) : (s.respond r).err = s.err := rfl
@[simp] theorem State.respond_drop (s : State) (r : Response) : (s.respond r).drop = s.drop := rfl
@[simp] theorem State.respond_accErr (s : State) (r : Response) : (s.respond r).accErr = s.accErr := rfl
@[simp] theorem State.respond_errCode (s : State) (r : Response) : (s.respond r).errCode = s.errCode := rfl
@[simp] theorem State.respond_lastCmd (s : State) (r : Response) : (s.respond r).lastCmd = s.lastCmd := rfl
@[simp] theorem State.respond_env (s : State) (r : Response) : (s.respond r).env = { s.env with response := r } := rfl

@[simp] theorem State.setHost_regs (s : State) (k : Nat) (h : HostAgent) : (s.setHost k h).regs = s.regs := rfl
@[simp] theorem State.setHost_mod (s : State) (k : Nat) (h : HostAgent) : (s.setHost k h).mod = s.mod := rfl
@[simp] theorem State.setHost_ieDone (s : State) (k : Nat) (h : HostAgent) : (s.setHost k h).ieDone = s.ieDone := rfl
@[simp] theorem State.setHost_ieErr (s : State) (k : Nat) (h : HostAgent) : (s.setHost k h).ieErr = s.ieErr := rfl
@[simp] theorem State.setHost_busy (s : State) (k : Nat) (h : HostAgent) : (s.setHost k h).busy = s.busy := rfl
@[simp] theorem State.setHost_done (s : State) (k : Nat) (h : HostAgent) : (s.setHost k h).done = s.done := rfl
@[simp] theorem State.setHost_err (s : State) (k : Nat) (h : HostAgent) : (s.setHost k h).err = s.err := rfl
@[simp] theorem State.setHost_drop (s : State) (k : Nat) (h : HostAgent) : (s.setHost k h).drop = s.drop := rfl
@[simp] theorem State.setHost_accErr (s : State) (k : Nat) (h : HostAgent) : (s.setHost k h).accErr = s.accErr := rfl
@[simp] theorem State.setHost_errCode (s : State) (k : Nat) (h : HostAgent) : (s.setHost k h).errCode = s.errCode := rfl
@[simp] theorem State.setHost_lastCmd (s : State) (k : Nat) (h : HostAgent) : (s.setHost k h).lastCmd = s.lastCmd := rfl
@[simp] theorem State.setHost_env (s : State) (k : Nat) (h : HostAgent) : (s.setHost k h).env = { s.env with hosts := s.env.hosts.set k h } := rfl

@[simp] theorem State.setRequest_regs (s : State) (r : Option Pins) : (s.setRequest r).regs = s.regs := rfl
@[simp] theorem State.setRequest_mod (s : State) (r : Option Pins) : (s.setRequest r).mod = s.mod := rfl
@[simp] theorem State.setRequest_ieDone (s : State) (r : Option Pins) : (s.setRequest r).ieDone = s.ieDone := rfl
@[simp] theorem State.setRequest_ieErr (s : State) (r : Option Pins) : (s.setRequest r).ieErr = s.ieErr := rfl
@[simp] theorem State.setRequest_busy (s : State) (r : Option Pins) : (s.setRequest r).busy = s.busy := rfl
@[simp] theorem State.setRequest_done (s : State) (r : Option Pins) : (s.setRequest r).done = s.done := rfl
@[simp] theorem State.setRequest_err (s : State) (r : Option Pins) : (s.setRequest r).err = s.err := rfl
@[simp] theorem State.setRequest_drop (s : State) (r : Option Pins) : (s.setRequest r).drop = s.drop := rfl
@[simp] theorem State.setRequest_accErr (s : State) (r : Option Pins) : (s.setRequest r).accErr = s.accErr := rfl
@[simp] theorem State.setRequest_errCode (s : State) (r : Option Pins) : (s.setRequest r).errCode = s.errCode := rfl
@[simp] theorem State.setRequest_lastCmd (s : State) (r : Option Pins) : (s.setRequest r).lastCmd = s.lastCmd := rfl
@[simp] theorem State.setRequest_env (s : State) (r : Option Pins) : (s.setRequest r).env = { s.env with request := r } := rfl

@[simp] theorem State.begin_regs (s : State) (es : List Event) : (s.begin es).regs = s.regs := rfl
@[simp] theorem State.begin_mod (s : State) (es : List Event) : (s.begin es).mod = s.mod := rfl
@[simp] theorem State.begin_ieDone (s : State) (es : List Event) : (s.begin es).ieDone = s.ieDone := rfl
@[simp] theorem State.begin_ieErr (s : State) (es : List Event) : (s.begin es).ieErr = s.ieErr := rfl
@[simp] theorem State.begin_busy (s : State) (es : List Event) : (s.begin es).busy = s.busy := rfl
@[simp] theorem State.begin_done (s : State) (es : List Event) : (s.begin es).done = s.done := rfl
@[simp] theorem State.begin_err (s : State) (es : List Event) : (s.begin es).err = s.err := rfl
@[simp] theorem State.begin_drop (s : State) (es : List Event) : (s.begin es).drop = s.drop := rfl
@[simp] theorem State.begin_accErr (s : State) (es : List Event) : (s.begin es).accErr = s.accErr := rfl
@[simp] theorem State.begin_errCode (s : State) (es : List Event) : (s.begin es).errCode = s.errCode := rfl
@[simp] theorem State.begin_lastCmd (s : State) (es : List Event) : (s.begin es).lastCmd = s.lastCmd := rfl
@[simp] theorem State.begin_env (s : State) (es : List Event) : (s.begin es).env = { s.env with schedule := es, response := .none } := rfl

@[simp] theorem State.placeCommand_regs (s : State) (w : Word) : (s.placeCommand w).regs = s.regs := rfl
@[simp] theorem State.placeCommand_mod (s : State) (w : Word) : (s.placeCommand w).mod = s.mod := rfl
@[simp] theorem State.placeCommand_ieDone (s : State) (w : Word) : (s.placeCommand w).ieDone = s.ieDone := rfl
@[simp] theorem State.placeCommand_ieErr (s : State) (w : Word) : (s.placeCommand w).ieErr = s.ieErr := rfl
@[simp] theorem State.placeCommand_busy (s : State) (w : Word) : (s.placeCommand w).busy = true := rfl
@[simp] theorem State.placeCommand_done (s : State) (w : Word) : (s.placeCommand w).done = s.done := rfl
@[simp] theorem State.placeCommand_err (s : State) (w : Word) : (s.placeCommand w).err = s.err := rfl
@[simp] theorem State.placeCommand_drop (s : State) (w : Word) : (s.placeCommand w).drop = s.drop := rfl
@[simp] theorem State.placeCommand_accErr (s : State) (w : Word) : (s.placeCommand w).accErr = s.accErr := rfl
@[simp] theorem State.placeCommand_errCode (s : State) (w : Word) : (s.placeCommand w).errCode = s.errCode := rfl
@[simp] theorem State.placeCommand_lastCmd (s : State) (w : Word) : (s.placeCommand w).lastCmd = w := rfl
@[simp] theorem State.placeCommand_env (s : State) (w : Word) : (s.placeCommand w).env = { s.env with schedule := .engine :: s.env.schedule, resetApplied := true } := rfl

@[simp] theorem powerCycle_regs (s : State) : (powerCycle s).regs = s.regs := rfl
@[simp] theorem powerCycle_mod (s : State) : (powerCycle s).mod = s.mod := rfl
@[simp] theorem powerCycle_ieDone (s : State) : (powerCycle s).ieDone = s.ieDone := rfl
@[simp] theorem powerCycle_ieErr (s : State) : (powerCycle s).ieErr = s.ieErr := rfl
@[simp] theorem powerCycle_busy (s : State) : (powerCycle s).busy = s.busy := rfl
@[simp] theorem powerCycle_done (s : State) : (powerCycle s).done = s.done := rfl
@[simp] theorem powerCycle_err (s : State) : (powerCycle s).err = s.err := rfl
@[simp] theorem powerCycle_drop (s : State) : (powerCycle s).drop = s.drop := rfl
@[simp] theorem powerCycle_accErr (s : State) : (powerCycle s).accErr = s.accErr := rfl
@[simp] theorem powerCycle_errCode (s : State) : (powerCycle s).errCode = s.errCode := rfl
@[simp] theorem powerCycle_lastCmd (s : State) : (powerCycle s).lastCmd = s.lastCmd := rfl
@[simp] theorem powerCycle_env (s : State) : (powerCycle s).env = { s.env with request := none, resetApplied := false } := rfl

@[simp] theorem State.statusWrite_regs (s : State) (d : Word) : (s.statusWrite d).regs = s.regs := rfl
@[simp] theorem State.statusWrite_mod (s : State) (d : Word) : (s.statusWrite d).mod = s.mod := rfl
@[simp] theorem State.statusWrite_ieDone (s : State) (d : Word) : (s.statusWrite d).ieDone = s.ieDone := rfl
@[simp] theorem State.statusWrite_ieErr (s : State) (d : Word) : (s.statusWrite d).ieErr = s.ieErr := rfl
@[simp] theorem State.statusWrite_busy (s : State) (d : Word) : (s.statusWrite d).busy = s.busy := rfl
@[simp] theorem State.statusWrite_done (s : State) (d : Word) : (s.statusWrite d).done = (s.done && !d.getLsbD 1) := rfl
@[simp] theorem State.statusWrite_err (s : State) (d : Word) : (s.statusWrite d).err = (s.err && !d.getLsbD 2) := rfl
@[simp] theorem State.statusWrite_drop (s : State) (d : Word) : (s.statusWrite d).drop = (s.drop && !d.getLsbD 3) := rfl
@[simp] theorem State.statusWrite_accErr (s : State) (d : Word) : (s.statusWrite d).accErr = (s.accErr && !d.getLsbD 4) := rfl
@[simp] theorem State.statusWrite_errCode (s : State) (d : Word) : (s.statusWrite d).errCode = (if d.getLsbD 2 then 0 else s.errCode) := rfl
@[simp] theorem State.statusWrite_lastCmd (s : State) (d : Word) : (s.statusWrite d).lastCmd = s.lastCmd := rfl
@[simp] theorem State.statusWrite_env (s : State) (d : Word) : (s.statusWrite d).env = s.env := rfl

@[simp] theorem State.unitReset_regs (s : State) : (s.unitReset).regs = Vector.replicate 8 0 := rfl
@[simp] theorem State.unitReset_mod (s : State) : (s.unitReset).mod = 0 := rfl
@[simp] theorem State.unitReset_ieDone (s : State) : (s.unitReset).ieDone = false := rfl
@[simp] theorem State.unitReset_ieErr (s : State) : (s.unitReset).ieErr = false := rfl
@[simp] theorem State.unitReset_busy (s : State) : (s.unitReset).busy = false := rfl
@[simp] theorem State.unitReset_done (s : State) : (s.unitReset).done = false := rfl
@[simp] theorem State.unitReset_err (s : State) : (s.unitReset).err = false := rfl
@[simp] theorem State.unitReset_drop (s : State) : (s.unitReset).drop = false := rfl
@[simp] theorem State.unitReset_accErr (s : State) : (s.unitReset).accErr = false := rfl
@[simp] theorem State.unitReset_errCode (s : State) : (s.unitReset).errCode = 0 := rfl
@[simp] theorem State.unitReset_lastCmd (s : State) : (s.unitReset).lastCmd = 0 := rfl
@[simp] theorem State.unitReset_env (s : State) : (s.unitReset).env = { s.env with resetApplied := true } := rfl

@[simp] theorem State.complete_mod (s : State) (rd : RegField) (r : ExecResult) : (s.complete rd r).mod = s.mod := by cases r <;> rfl
@[simp] theorem State.complete_ieDone (s : State) (rd : RegField) (r : ExecResult) : (s.complete rd r).ieDone = s.ieDone := by cases r <;> rfl
@[simp] theorem State.complete_ieErr (s : State) (rd : RegField) (r : ExecResult) : (s.complete rd r).ieErr = s.ieErr := by cases r <;> rfl
@[simp] theorem State.complete_drop (s : State) (rd : RegField) (r : ExecResult) : (s.complete rd r).drop = s.drop := by cases r <;> rfl
@[simp] theorem State.complete_accErr (s : State) (rd : RegField) (r : ExecResult) : (s.complete rd r).accErr = s.accErr := by cases r <;> rfl
@[simp] theorem State.complete_lastCmd (s : State) (rd : RegField) (r : ExecResult) : (s.complete rd r).lastCmd = s.lastCmd := by cases r <;> rfl
@[simp] theorem State.complete_env (s : State) (rd : RegField) (r : ExecResult) : (s.complete rd r).env = s.env := by cases r <;> rfl
@[simp] theorem State.complete_busy (s : State) (rd : RegField) (r : ExecResult) : (s.complete rd r).busy = false := by cases r <;> rfl

@[simp] theorem State.writeBig_mod_mod (s : State) (v : Operand) : (s.writeBig .mod v).mod = v := rfl
@[simp] theorem State.writeBig_mod_regs (s : State) (v : Operand) : (s.writeBig .mod v).regs = s.regs := rfl
@[simp] theorem State.writeBig_r_mod (s : State) (k : Fin 8) (v : Operand) : (s.writeBig (.r k) v).mod = s.mod := rfl
@[simp] theorem State.writeBig_r_regs (s : State) (k : Fin 8) (v : Operand) :
    (s.writeBig (.r k) v).regs = s.regs.set k v := rfl

/-- Reading a register after a write to a register (R14). -/
@[simp] theorem State.readReg_writeReg (s : State) (f g : RegField) (v : Operand) :
    (s.writeReg f v).readReg g = if regSlot f = regSlot g then v else s.readReg g := by
  simp [State.readReg, Vector.getElem_set, Fin.ext_iff]

/-- Reading a register that has a window after a write to one (R38). -/
@[simp] theorem State.readBig_writeBig (s : State) (x y : BigReg) (v : Operand) :
    (s.writeBig x v).readBig y = if x = y then v else s.readBig y := by
  cases x <;> cases y <;> simp [State.readBig, Vector.getElem_set, Fin.ext_iff]

/-- The registers that have windows are all that `MOD` and `R0` to `R7` hold: equal readings, equal fields. -/
theorem State.regs_mod_eq_of_readBig {s t : State} (h : ∀ x, t.readBig x = s.readBig x) :
    t.regs = s.regs ∧ t.mod = s.mod := by
  refine ⟨?_, h .mod⟩
  ext1 i hi
  exact h (.r ⟨i, hi⟩)

/-- Two fields that name registers name the same one exactly when they are equal (R56). -/
theorem regSlot_eq_iff {f g : RegField} (hf : namesRegister f = true) (hg : namesRegister g = true) :
    regSlot f = regSlot g ↔ f = g := by
  simp only [namesRegister, decide_eq_true_eq] at hf hg
  rw [Fin.ext_iff, BitVec.toNat_eq]
  simp only [regSlot]
  omega

/-- Once a reset has been applied the output shows the `irq` level (R29, R98). -/
theorem State.irqOutput_of_applied {s : State} (h : s.env.resetApplied = true) :
    s.irqOutput = (Config.irqLine, s.irq) := by
  rw [State.irqOutput, if_pos h]

end Sys2Proof.Machine
end

