-- ==== Sys2Proof/Laws/Window.lean ====
section
/-! SUPPORT. The layout of a 2048-bit register in its window (R38, R43): reading a word after a write of a word, and the
offsets of the windows in the register map (R20). -/

namespace Sys2Proof.Machine

theorem wordOf_toNat (x : Operand) (j : Nat) : (wordOf x j).toNat = x.toNat / 2 ^ wordShift j % 2 ^ 32 := by
  simp [wordOf, BitVec.extractLsb'_toNat, Nat.shiftRight_eq_div_pow]

/-- The parts of a natural around its 32 bits from bit `s` up. -/
theorem nat_parts (x s : Nat) :
    x = x / 2 ^ (s + 32) * 2 ^ (s + 32) + x / 2 ^ s % 2 ^ 32 * 2 ^ s + x % 2 ^ s := by
  have h1 := Nat.div_add_mod' x (2 ^ s)
  have h2 := Nat.div_add_mod' (x / 2 ^ s) (2 ^ 32)
  rw [Nat.div_div_eq_div_mul, ← pow_add] at h2
  calc x = x / 2 ^ s * 2 ^ s + x % 2 ^ s := h1.symm
    _ = (x / 2 ^ (s + 32) * 2 ^ 32 + x / 2 ^ s % 2 ^ 32) * 2 ^ s + x % 2 ^ s := by rw [h2]
    _ = _ := by ring

/-- What replacing the 32 bits from bit `s` up gives (R43), part by part. -/
theorem nat_replace (x s d : Nat) :
    x - x / 2 ^ s % 2 ^ 32 * 2 ^ s + d * 2 ^ s = x / 2 ^ (s + 32) * 2 ^ (s + 32) + d * 2 ^ s + x % 2 ^ s := by
  conv_lhs => rw [nat_parts x s]
  have := nat_parts x s
  have h : (x / 2 ^ (s + 32) * 2 ^ (s + 32) + x / 2 ^ s % 2 ^ 32 * 2 ^ s + x % 2 ^ s) / 2 ^ s % 2 ^ 32 =
      x / 2 ^ s % 2 ^ 32 := by rw [← this]
  rw [h]
  omega

theorem wordShift_le {j : Nat} : wordShift j + 32 ≤ 2048 := by rw [wordShift]; omega

theorem withWord_toNat (x : Operand) (j : Nat) (d : Word) :
    (withWord x j d).toNat =
      x.toNat / 2 ^ (wordShift j + 32) * 2 ^ (wordShift j + 32) + d.toNat * 2 ^ wordShift j +
        x.toNat % 2 ^ wordShift j := by
  rw [withWord, BitVec.toNat_ofNat, wordOf_toNat, nat_replace]
  apply Nat.mod_eq_of_lt
  have low : x.toNat % 2 ^ wordShift j < 2 ^ wordShift j := Nat.mod_lt _ (by positivity)
  have mid : d.toNat * 2 ^ wordShift j + x.toNat % 2 ^ wordShift j < 2 ^ (wordShift j + 32) := by
    have : d.toNat + 1 ≤ 2 ^ 32 := d.isLt
    calc d.toNat * 2 ^ wordShift j + x.toNat % 2 ^ wordShift j
        < (d.toNat + 1) * 2 ^ wordShift j := by rw [Nat.add_mul]; omega
      _ ≤ 2 ^ 32 * 2 ^ wordShift j := Nat.mul_le_mul_right _ this
      _ = 2 ^ (wordShift j + 32) := by rw [← pow_add, Nat.add_comm]
  have top : x.toNat / 2 ^ (wordShift j + 32) + 1 ≤ 2 ^ (2048 - (wordShift j + 32)) := by
    rw [Nat.succ_le_iff, Nat.div_lt_iff_lt_mul (by positivity), ← pow_add, Nat.sub_add_cancel wordShift_le]
    exact x.isLt
  calc _ < (x.toNat / 2 ^ (wordShift j + 32) + 1) * 2 ^ (wordShift j + 32) := by rw [Nat.add_mul]; omega
    _ ≤ 2 ^ (2048 - (wordShift j + 32)) * 2 ^ (wordShift j + 32) := Nat.mul_le_mul_right _ top
    _ = 2 ^ 2048 := by rw [← pow_add, Nat.sub_add_cancel wordShift_le]

/-- The word written is the word read (R38, R43). -/
theorem wordOf_withWord_same (x : Operand) (j : Nat) (d : Word) : wordOf (withWord x j d) j = d := by
  apply BitVec.eq_of_toNat_eq
  rw [wordOf_toNat, withWord_toNat]
  generalize wordShift j = s
  have low : x.toNat % 2 ^ s < 2 ^ s := Nat.mod_lt _ (by positivity)
  have : x.toNat / 2 ^ (s + 32) * 2 ^ (s + 32) + d.toNat * 2 ^ s + x.toNat % 2 ^ s =
      x.toNat % 2 ^ s + 2 ^ s * (d.toNat + 2 ^ 32 * (x.toNat / 2 ^ (s + 32))) := by rw [pow_add]; ring
  rw [this, Nat.add_mul_div_left _ _ (by positivity), Nat.div_eq_of_lt low, Nat.zero_add, Nat.add_mul_mod_self_left]
  exact Nat.mod_eq_of_lt d.isLt

/-- The other 63 words are unchanged (R43). -/
theorem wordOf_withWord_other (x : Operand) {i j : Nat} (hi : i ≤ 63) (hj : j ≤ 63) (ne : i ≠ j) (d : Word) :
    wordOf (withWord x j d) i = wordOf x i := by
  apply BitVec.eq_of_toNat_eq
  rw [wordOf_toNat, wordOf_toNat, withWord_toNat]
  have apart : wordShift j + 32 ≤ wordShift i ∨ wordShift i + 32 ≤ wordShift j := by
    simp only [wordShift]; omega
  generalize wordShift i = si at *
  generalize wordShift j = sj at *
  generalize x.toNat = n
  have low : n % 2 ^ sj < 2 ^ sj := Nat.mod_lt _ (by positivity)
  have dlt : d.toNat + 1 ≤ 2 ^ 32 := d.isLt
  rcases apart with up | down
  · obtain ⟨k, rfl⟩ := Nat.exists_eq_add_of_le up
    rw [pow_add 2 (sj + 32) k, ← Nat.div_div_eq_div_mul, ← Nat.div_div_eq_div_mul]
    congr 2
    have mid : d.toNat * 2 ^ sj + n % 2 ^ sj < 2 ^ (sj + 32) := by
      calc d.toNat * 2 ^ sj + n % 2 ^ sj < (d.toNat + 1) * 2 ^ sj := by rw [Nat.add_mul]; omega
        _ ≤ 2 ^ 32 * 2 ^ sj := Nat.mul_le_mul_right _ dlt
        _ = 2 ^ (sj + 32) := by rw [← pow_add, Nat.add_comm]
    rw [Nat.add_assoc, Nat.mul_comm, Nat.mul_add_div (by positivity), Nat.div_eq_of_lt mid, Nat.add_zero]
  · obtain ⟨k, rfl⟩ := Nat.exists_eq_add_of_le down
    have shape : ∀ m, m / 2 ^ si % 2 ^ 32 = m % 2 ^ (si + 32) / 2 ^ si := by
      intro m; rw [pow_add, Nat.mod_mul_right_div_self]
    rw [shape, shape n]
    congr 1
    have e1 : n / 2 ^ (si + 32 + k + 32) * 2 ^ (si + 32 + k + 32) + d.toNat * 2 ^ (si + 32 + k) + n % 2 ^ (si + 32 + k) =
        n % 2 ^ (si + 32 + k) +
          2 ^ (si + 32) * (2 ^ k * (d.toNat + 2 ^ 32 * (n / 2 ^ (si + 32 + k + 32)))) := by
      rw [pow_add 2 (si + 32 + k) 32, pow_add 2 (si + 32) k]; ring
    rw [e1, Nat.add_mul_mod_self_left, pow_add 2 (si + 32) k, Nat.mod_mul_right_mod]

/-- A register is the sum of its words (R38), from its word `n` down. -/
theorem sum_words (x : Operand) (n : Nat) (hn : n ≤ 64) :
    ((List.range n).map fun i => (wordOf x (63 - i)).toNat * 2 ^ wordShift (63 - i)).sum = x.toNat % 2 ^ (32 * n) := by
  induction n with
  | zero => simp [Nat.mod_one]
  | succ n ih =>
    have shift : wordShift (63 - n) = 32 * n := by rw [wordShift]; omega
    rw [List.range_succ, List.map_append, List.sum_append, ih (by omega)]
    simp only [List.map_cons, List.map_nil, List.sum_cons, List.sum_nil, Nat.add_zero]
    rw [wordOf_toNat, shift, show 32 * (n + 1) = 32 * n + 32 by ring, pow_add, Nat.mod_mul]
    ring

/-! ## The register map -/

theorem windowBase_le (x : BigReg) : 0x100 ≤ windowBase x ∧ windowBase x ≤ 0x900 ∧ windowBase x % 256 = 0 := by
  cases x with
  | mod => decide
  | r k => simp only [windowBase]; omega

theorem windowOffset_toNat (x : BigReg) {j : Nat} (hj : j ≤ 63) :
    (windowOffset x j).toNat = windowBase x + 4 * j := by
  have := windowBase_le x
  rw [windowOffset, BitVec.toNat_ofNat, Nat.mod_eq_of_lt (by omega)]

theorem pageRegister_windowBase (x : BigReg) : pageRegister (windowBase x / 256) = some x := by
  cases x with
  | mod => rfl
  | r k =>
    have page : windowBase (.r k) / 256 = k.val + 2 := by simp only [windowBase]; omega
    have : (2 ≤ k.val + 2 ∧ k.val + 2 ≤ 9) := by omega
    rw [page, pageRegister, if_neg (by omega), dif_pos this]
    simp

/-- The offsets of a window are word-aligned (R38). -/
theorem windowOffset_aligned (x : BigReg) {j : Nat} (hj : j ≤ 63) : (windowOffset x j).toNat % 4 = 0 := by
  have := windowBase_le x
  rw [windowOffset_toNat x hj]; omega

/-- What stands at the offset of word j of a window (R20, R38). -/
theorem target_windowOffset (x : BigReg) {j : Nat} (hj : j ≤ 63) : target (windowOffset x j) = .window x j := by
  have hb := windowBase_le x
  have toNat := windowOffset_toNat x hj
  have big : ∀ c : Offset, c.toNat < 0x100 → windowOffset x j ≠ c := by
    intro c hc e
    rw [e] at toNat
    omega
  rw [target, if_neg (big _ (by decide)), if_neg (big _ (by decide)), if_neg (big _ (by decide)),
    if_neg (big _ (by decide)), if_neg (big _ (by decide)), if_neg (big _ (by decide)), toNat]
  have page : (windowBase x + 4 * j) / 256 = windowBase x / 256 := by omega
  have word : (windowBase x + 4 * j) % 256 / 4 = j := by omega
  rw [page, word, pageRegister_windowBase]

end Sys2Proof.Machine
end

