-- ==== Sys2Proof/Laws/Ops.lean ====
section
/-! SUPPORT. For each shared operation, once, everything it can do; the later proofs cite these and do not unfold it. -/

namespace Sys2Proof.Machine

/-! ## Commands -/

/-- The outcome of a command on a state (R67), the meanings of Machine/ read off as one function. -/
def execResult (i : Instr) (s : State) : ExecResult :=
  match i with
  | .nop => .ok
  | .modmul rd rs1 rs2 => checkedResult [rd, rs1, rs2] s.mod fun p => mulResult (s.regNat rs1) (s.regNat rs2) p
  | .modinv rd rs1 => checkedResult [rd, rs1] s.mod fun p => inverseResult (s.regNat rs1) p
  | .modsqrt rd rs1 => checkedResult [rd, rs1] s.mod fun p => sqrtResult (s.regNat rs1) p
  | .modexp rd rs1 rs2 => checkedResult [rd, rs1, rs2] s.mod fun p => powResult (s.regNat rs1) (s.regNat rs2) p

/-- A command answers a next state on every state: the report of its outcome (R68). -/
theorem exec_eq_complete (i : Instr) (s : State) :
    exec i s = .next (s.complete ((destination i).getD 0) (execResult i s)) := by
  cases i <;> rfl

theorem complete_okValue (s : State) (rd : RegField) (v : Nat) : s.complete rd (.okValue v) = s.succeeded rd v := rfl

theorem complete_fail (s : State) (rd : RegField) (e : CmdError) : s.complete rd (.fail e) = s.failed e.code := rfl

theorem modulusValid_iff (m : Operand) : modulusValid m = true ↔ m.toNat % 2 = 1 ∧ 3 ≤ m.toNat := by
  simp [modulusValid]

theorem wellFormed_iff_fields (i : Instr) : i.wellFormed = true ↔ i.fields.all namesRegister = true := Iff.rfl

/-- The checks before an arithmetic command's own function, all passed (R67). -/
theorem checkedResult_valid {fields : List RegField} {m : Operand} (f : Nat → ExecResult)
    (hf : fields.all namesRegister = true) (odd : m.toNat % 2 = 1) (three : 3 ≤ m.toNat) :
    checkedResult fields m f = f m.toNat := by
  simp [checkedResult, hf, (modulusValid_iff m).2 ⟨odd, three⟩]

theorem checkedResult_badField {fields : List RegField} (m : Operand) (f : Nat → ExecResult)
    (hf : fields.all namesRegister = false) : checkedResult fields m f = .fail .illegalOperand := by
  simp [checkedResult, hf]

theorem checkedResult_badModulus {fields : List RegField} {m : Operand} (f : Nat → ExecResult)
    (hf : fields.all namesRegister = true) (bad : m.toNat % 2 = 0 ∨ m.toNat < 3) :
    checkedResult fields m f = .fail .badModulus := by
  have : modulusValid m = false := by
    rw [← Bool.not_eq_true, modulusValid_iff]; omega
  simp [checkedResult, hf, this]

/-- Everything the checks can answer (R67). -/
theorem checkedResult_cases (fields : List RegField) (m : Operand) (f : Nat → ExecResult) :
    (fields.all namesRegister = false ∧ checkedResult fields m f = .fail .illegalOperand) ∨
    (fields.all namesRegister = true ∧ (m.toNat % 2 = 0 ∨ m.toNat < 3) ∧ checkedResult fields m f = .fail .badModulus) ∨
    (fields.all namesRegister = true ∧ m.toNat % 2 = 1 ∧ 3 ≤ m.toNat ∧ checkedResult fields m f = f m.toNat) := by
  cases hf : fields.all namesRegister
  · exact .inl ⟨rfl, checkedResult_badField m f hf⟩
  · by_cases bad : m.toNat % 2 = 0 ∨ m.toNat < 3
    · exact .inr (.inl ⟨rfl, bad, checkedResult_badModulus f hf bad⟩)
    · exact .inr (.inr ⟨rfl, by omega, by omega, checkedResult_valid f hf (by omega) (by omega)⟩)

/-- What an arithmetic command's own function can answer for a valid modulus: a value below it, or the command's own
error (R4, R90). -/
def OwnResult (p : Nat) (r : ExecResult) : Prop :=
  (∃ v, v < p ∧ r = .okValue v) ∨ r = .fail .noInverse ∨ r = .fail .nonResidue ∨ r = .fail .sqrtFail

theorem mulResult_own {p : Nat} (a b : Nat) (hp : 0 < p) : OwnResult p (mulResult a b p) :=
  .inl ⟨_, Nat.mod_lt _ hp, rfl⟩

theorem powResult_own {p : Nat} (x e : Nat) (hp : 0 < p) : OwnResult p (powResult x e p) :=
  .inl ⟨_, powMod_lt _ _ hp, rfl⟩

theorem inverseResult_own {p : Nat} (a : Nat) (hp : 2 ≤ p) : OwnResult p (inverseResult a p) := by
  rw [inverseResult]
  split
  · exact .inr (.inl rfl)
  · next g =>
    push Not at g
    have := inverseMod_spec hp g
    exact .inl ⟨_, by omega, rfl⟩

theorem sqrtResult_own {p : Nat} (a : Nat) (hp : p % 2 = 1) : OwnResult p (sqrtResult a p) := by
  rw [sqrtResult]
  obtain ⟨v, h⟩ | h | h := sqrtProc_cases a p
  · have := sqrtProc_okValue hp h
    exact .inl ⟨v, by omega, h⟩
  · exact .inr (.inr (.inl h))
  · exact .inr (.inr (.inr h))

/-- Everything an arithmetic command's outcome can be, from what its own function can answer. -/
theorem execResult_arithmetic {i : Instr} {s : State} {f : Nat → ExecResult} (ne : i ≠ .nop)
    (eq : execResult i s = checkedResult i.fields s.mod f)
    (own : s.mod.toNat % 2 = 1 → 3 ≤ s.mod.toNat → OwnResult s.mod.toNat (f s.mod.toNat)) :
    (i.wellFormed = false ∧ execResult i s = .fail .illegalOperand) ∨
    (i ≠ .nop ∧ i.wellFormed = true ∧ (s.mod.toNat % 2 = 0 ∨ s.mod.toNat < 3) ∧
      execResult i s = .fail .badModulus) ∨
    (i ≠ .nop ∧ i.wellFormed = true ∧ s.mod.toNat % 2 = 1 ∧ 3 ≤ s.mod.toNat ∧
      OwnResult s.mod.toNat (execResult i s)) := by
  rw [eq]
  obtain ⟨h1, h2⟩ | ⟨h1, h2, h3⟩ | ⟨h1, h2, h3, h4⟩ := checkedResult_cases i.fields s.mod f
  · exact .inl ⟨h1, h2⟩
  · exact .inr (.inl ⟨ne, h1, h2, h3⟩)
  · exact .inr (.inr ⟨ne, h1, h2, h3, h4 ▸ own h2 h3⟩)

/-- Everything a command's outcome can be (R67). -/
theorem execResult_cases (i : Instr) (s : State) :
    (i = .nop ∧ execResult i s = .ok) ∨
    (i.wellFormed = false ∧ execResult i s = .fail .illegalOperand) ∨
    (i ≠ .nop ∧ i.wellFormed = true ∧ (s.mod.toNat % 2 = 0 ∨ s.mod.toNat < 3) ∧
      execResult i s = .fail .badModulus) ∨
    (i ≠ .nop ∧ i.wellFormed = true ∧ s.mod.toNat % 2 = 1 ∧ 3 ≤ s.mod.toNat ∧
      OwnResult s.mod.toNat (execResult i s)) := by
  cases i with
  | nop => exact .inl ⟨rfl, rfl⟩
  | modmul rd rs1 rs2 =>
    exact .inr (execResult_arithmetic (by simp) rfl fun _ three => mulResult_own _ _ (by omega))
  | modinv rd rs1 =>
    exact .inr (execResult_arithmetic (by simp) rfl fun _ three => inverseResult_own _ (by omega))
  | modsqrt rd rs1 =>
    exact .inr (execResult_arithmetic (by simp) rfl fun odd _ => sqrtResult_own _ odd)
  | modexp rd rs1 rs2 =>
    exact .inr (execResult_arithmetic (by simp) rfl fun _ three => powResult_own _ _ (by omega))

/-- The value a command writes is read back from its destination (R57, R68). -/
theorem regNat_succeeded {s : State} (rd : RegField) {v : Nat} (hv : v < s.mod.toNat) :
    (s.succeeded rd v).regNat rd = v := by
  have := s.mod.isLt
  simp [State.regNat, State.succeeded, State.readReg, Nat.mod_eq_of_lt (hv.trans this)]

theorem CmdError.code_range (e : CmdError) : 1 ≤ e.code.toNat ∧ e.code.toNat ≤ 6 := by cases e <;> decide

/-! ## The register interface -/

/-- Everything a read can do (R42, R46). -/
theorem memRead_cases (s : State) (off : Offset) :
    (s.memRead off = (0, s.accessError) ∧
      (off.toNat % 4 ≠ 0 ∨ target off = .reserved ∨ (s.busy = true ∧ ∃ x j, target off = .window x j))) ∨
    ((s.memRead off).2 = s ∧
      ¬(off.toNat % 4 ≠ 0 ∨ target off = .reserved ∨ (s.busy = true ∧ ∃ x j, target off = .window x j))) := by
  rw [State.memRead]
  split
  · next mis => exact .inl ⟨rfl, .inl mis⟩
  · next al =>
    cases htarget : target off <;> simp [al]
    case window x j => cases hb : s.busy <;> simp

/-- The registers that a write can act on beyond storing stand at one offset each (R20). -/
theorem target_control {off : Offset} :
    (target off = .ctrl → off = 0x008) ∧ (target off = .status → off = 0x00C) ∧ (target off = .cmd → off = 0x010) := by
  rw [target]
  refine ⟨fun h => ?_, fun h => ?_, fun h => ?_⟩ <;> (repeat' split at h) <;> first | assumption | cases h

/-- Everything a write can do (R43), by what it reaches. -/
theorem memWrite_cases (s : State) (off : Offset) (d : Word) (strb : Strobe) :
    s.memWrite off d strb = s.accessError ∨
    (off = 0x008 ∧ strb = 0b1111 ∧ s.memWrite off d strb = s.ctrlWrite d) ∨
    (off = 0x00C ∧ strb = 0b1111 ∧ s.memWrite off d strb = s.statusWrite d) ∨
    (off = 0x010 ∧ strb = 0b1111 ∧ s.memWrite off d strb = s.cmdWrite d) ∨
    (s.busy = false ∧ ∃ x j, target off = .window x j ∧
      s.memWrite off d strb = s.writeBig x (withWord (s.readBig x) j d)) := by
  rw [State.memWrite]
  split
  · exact .inl rfl
  · next ok =>
    push Not at ok
    have hs : strb = 0b1111 := ok.2
    obtain ⟨hctrl, hstatus, hcmd⟩ := target_control (off := off)
    cases htarget : target off with
    | id => exact .inl rfl
    | version => exact .inl rfl
    | ctrl => exact .inr (.inl ⟨hctrl htarget, hs, rfl⟩)
    | status => exact .inr (.inr (.inl ⟨hstatus htarget, hs, rfl⟩))
    | cmd => exact .inr (.inr (.inr (.inl ⟨hcmd htarget, hs, rfl⟩)))
    | param => exact .inl rfl
    | window x j =>
      cases hb : s.busy
      · exact .inr (.inr (.inr (.inr ⟨rfl, x, j, rfl, by simp⟩)))
      · exact .inl (by simp)
    | reserved => exact .inl rfl

theorem memRead_window_idle {s : State} (idle : s.busy = false) (x : BigReg) {j : Nat} (hj : j ≤ 63) :
    s.memRead (windowOffset x j) = (wordOf (s.readBig x) j, s) := by
  simp [State.memRead, windowOffset_aligned x hj, target_windowOffset x hj, idle]

theorem memRead_window_busy {s : State} (busy : s.busy = true) (x : BigReg) {j : Nat} (hj : j ≤ 63) :
    s.memRead (windowOffset x j) = (0, s.accessError) := by
  simp [State.memRead, windowOffset_aligned x hj, target_windowOffset x hj, busy]

theorem memWrite_window_idle {s : State} (idle : s.busy = false) (x : BigReg) {j : Nat} (hj : j ≤ 63) (d : Word) :
    s.memWrite (windowOffset x j) d 0b1111 = s.writeBig x (withWord (s.readBig x) j d) := by
  simp [State.memWrite, windowOffset_aligned x hj, target_windowOffset x hj, idle]

theorem memWrite_window_busy {s : State} (busy : s.busy = true) (x : BigReg) {j : Nat} (hj : j ≤ 63) (d : Word) :
    s.memWrite (windowOffset x j) d 0b1111 = s.accessError := by
  simp [State.memWrite, windowOffset_aligned x hj, target_windowOffset x hj, busy]

theorem memRead_status (s : State) : s.memRead 0x00C = (s.statusWord, s) := rfl
theorem memRead_ctrl (s : State) : s.memRead 0x008 = (s.ctrlWord, s) := rfl
theorem memRead_cmd (s : State) : s.memRead 0x010 = (s.lastCmd, s) := rfl
theorem memWrite_ctrl (s : State) (d : Word) : s.memWrite 0x008 d 0b1111 = s.ctrlWrite d := rfl
theorem memWrite_status (s : State) (d : Word) : s.memWrite 0x00C d 0b1111 = s.statusWrite d := rfl
theorem memWrite_cmd (s : State) (d : Word) : s.memWrite 0x010 d 0b1111 = s.cmdWrite d := rfl

/-- Everything a write to `CTRL` can do (R21, R22). -/
theorem ctrlWrite_cases (s : State) (d : Word) :
    (d.getLsbD 31 = true ∧ s.ctrlWrite d = s.unitReset) ∨
    (d.getLsbD 31 = false ∧ s.ctrlWrite d = { s with ieDone := d.getLsbD 0, ieErr := d.getLsbD 1 }) := by
  rw [State.ctrlWrite]
  cases h : d.getLsbD 31
  · exact .inr ⟨rfl, by simp⟩
  · exact .inl ⟨rfl, by simp⟩

/-- Everything a write to `CMD` can do (R64). -/
theorem cmdWrite_cases (s : State) (d : Word) :
    ((s.busy = true ∨ s.err = true) ∧ s.cmdWrite d = { s with drop := true }) ∨
    (s.busy = false ∧ s.err = false ∧ s.cmdWrite d = { s with lastCmd := d, done := false, busy := true }) := by
  rw [State.cmdWrite]
  cases hb : s.busy <;> cases he : s.err <;> simp

/-- Once a reset has been applied, a transaction is performed (R47). -/
theorem performTransaction_applied {s : State} (h : s.env.resetApplied = true) (tr : Transaction) :
    performTransaction tr s = .next (s.transact tr) := by
  simp [performTransaction, h]

/-- Everything a transaction can be refused for (R35). -/
theorem performTransaction_cases (tr : Transaction) (s : State) :
    performTransaction tr s = .next (s.transact tr) ∨
    (s.env.resetApplied = false ∧ tr.isSoftReset = false ∧ performTransaction tr s = .refused .resetNotApplied) := by
  rw [performTransaction]
  cases s.env.resetApplied <;> cases tr.isSoftReset <;> simp

/-! ## One step -/

/-- Everything the engine's turn can do (R68). -/
theorem engineTurn_cases (s : State) :
    (s.env.resetApplied = false ∧ engineTurn s = .refused .resetNotApplied) ∨
    (s.env.resetApplied = true ∧ s.busy = false ∧ engineTurn s = .next s) ∨
    (s.env.resetApplied = true ∧ s.busy = true ∧ engineTurn s = completeInFlight s) := by
  rw [engineTurn]
  cases s.env.resetApplied <;> cases s.busy <;> simp

/-- Everything the completion of the command in flight can do (R59, R68). -/
theorem completeInFlight_eq (s : State) : ∃ rd r, completeInFlight s = .next (s.complete rd r) := by
  rw [completeInFlight]
  split
  · exact ⟨_, _, exec_eq_complete _ _⟩
  · exact ⟨0, .fail .illegalOpcode, rfl⟩
  · exact ⟨0, .fail .illegalOperand, rfl⟩

/-- The events a step takes (R48). -/
theorem step_of_schedule {s : State} {e : Event} {rest : List Event} (h : s.env.schedule = e :: rest) :
    step s = takeEvent e (s.begin rest) := by
  rw [step, nextStep, h]

theorem step_of_empty {s : State} (h : s.env.schedule = []) : step s = engineTurn (s.begin []) := by
  rw [step, nextStep, h]

theorem step_of_engineNext {s : State} {rest : List Event} (h : s.EngineNext rest) :
    step s = engineTurn (s.begin rest) := by
  obtain h | ⟨h, rfl⟩ := h
  · rw [step_of_schedule h, takeEvent]
  · exact step_of_empty h

end Sys2Proof.Machine
end

