-- ==== Sys2Proof/Laws/Agents.lean ====
section
/-! SUPPORT. For each agent, once, everything its turn can do: a host, and the pins at a clock edge. -/

namespace Sys2Proof.Machine

/-! ## Registers behind a window -/

theorem readBig_writeBig_same (s : State) (x : BigReg) (v : Operand) : (s.writeBig x v).readBig x = v := by
  cases x <;> simp [State.writeBig, State.readBig]

theorem readBig_writeBig_other (s : State) {x y : BigReg} (ne : y ≠ x) (v : Operand) :
    (s.writeBig x v).readBig y = s.readBig y := by
  cases x <;> cases y <;> simp_all [State.writeBig, State.readBig]
  rw [Vector.getElem_set_ne]
  intro e
  exact ne (Fin.ext e).symm

/-- A register is determined by its 64 words (R38). -/
theorem eq_of_words {a b : Operand} (h : ∀ j, j ≤ 63 → wordOf a j = wordOf b j) : a = b := by
  apply BitVec.eq_of_toNat_eq
  have wordsA := sum_words a 64 le_rfl
  have wordsB := sum_words b 64 le_rfl
  rw [Nat.mod_eq_of_lt a.isLt] at wordsA
  rw [Nat.mod_eq_of_lt b.isLt] at wordsB
  rw [← wordsA, ← wordsB]
  refine congrArg List.sum (List.map_congr_left fun j _ => ?_)
  rw [h (63 - j) (by omega)]

/-! ## A host's turn -/

/-- The step in which the first host executes a statement without a transaction (R62). -/
theorem step_of_host_internal {s : State} {h g : HostAgent} {others : List HostAgent} {rest : List Event}
    (hosts : s.env.hosts = h :: others) (schedule : s.env.schedule = .host 0 :: rest) (move : h.move = .internal g) :
    step s = .next ((s.begin rest).setHost 0 g) := by
  rw [step_of_schedule schedule, takeEvent, hostTurn]
  simp [hosts, move]

/-- The step in which the first host issues a transaction (R62). -/
theorem step_of_host_issue {s : State} {h : HostAgent} {others : List HostAgent} {rest : List Event} {tr : Transaction}
    (hosts : s.env.hosts = h :: others) (schedule : s.env.schedule = .host 0 :: rest) (move : h.move = .issue tr)
    (applied : s.env.resetApplied = true) :
    step s = .next (((s.begin rest).transact tr).setHost 0 (h.receive ((s.begin rest).transact tr).env.response)) := by
  rw [step_of_schedule schedule, takeEvent, hostTurn]
  simp [hosts, move, performTransaction_applied, applied]

/-- Everything a host's turn that goes on can do (R6): nothing, a move of its own, or one transaction. -/
theorem hostTurn_cases {k : Nat} {s t : State} (h : hostTurn k s = .next t) :
    t = s ∨ (∃ g, t = s.setHost k g) ∨
      ∃ tr u g, performTransaction tr s = .next u ∧ t = u.setHost k g := by
  rw [hostTurn] at h
  split at h
  · cases h; exact .inl rfl
  · split at h
    · cases h; exact .inl rfl
    · cases h; exact .inr (.inl ⟨_, rfl⟩)
    · cases h
    · split at h
      next u performed => cases h; exact .inr (.inr ⟨_, u, _, performed, rfl⟩)
      · cases h
      · cases h

/-! ## A clock edge -/

/-- Everything a reset through `rst_n` can do (R109, R110). -/
theorem hardReset_cases (s : State) :
    (s.env.request = none ∧ hardReset s = .next s.unitReset) ∨
    (s.env.request.isSome = true ∧ hardReset s = .refused .transactionDuringReset) := by
  rw [hardReset]
  cases s.env.request <;> simp

/-- Everything a clock edge that goes on can do (R37): a reset, a change of the held request, one transaction, or
nothing. -/
theorem clockEdge_cases {p : Pins} {ack : Bool} {s t : State} (h : clockEdge p ack s = .next t) :
    (p.rstN = false ∧ t = s.unitReset) ∨
    (p.rstN = true ∧ ((∃ r, t = s.setRequest r) ∨ t = s ∨
      performTransaction p.transaction (s.setRequest none) = .next t)) := by
  rw [clockEdge] at h
  cases hr : p.rstN
  · left
    simp only [hr, Bool.not_false, if_true] at h
    split at h
    · cases h
    · obtain ⟨-, e⟩ | ⟨-, e⟩ := hardReset_cases s <;> rw [e] at h <;> cases h
      exact ⟨rfl, rfl⟩
  · right
    refine ⟨rfl, ?_⟩
    simp only [hr, Bool.not_true, Bool.false_eq_true, if_false] at h
    split at h
    · cases h; exact .inl ⟨_, rfl⟩
    · split at h
      · cases h
      · split at h
        · exact .inr (.inr h)
        · cases h; exact .inr (.inl rfl)

end Sys2Proof.Machine
end

