-- ==== Sys2Proof/Laws/Encoding.lean ====
section
/-! SUPPORT. A command word as the natural its five fields make up (R54): the fields, the encoder and the opcode table's
masks read off from it. -/

namespace Sys2Proof

/-! ## The fields of a word -/

theorem fieldOpc_toNat (w : Word) : (fieldOpc w).toNat = w.toNat / 2 ^ 24 := by
  have := w.isLt
  simp only [fieldOpc, BitVec.extractLsb'_toNat, Nat.shiftRight_eq_div_pow]
  omega

theorem fieldRd_toNat (w : Word) : (fieldRd w).toNat = w.toNat / 2 ^ 20 % 2 ^ 4 := by
  simp only [fieldRd, BitVec.extractLsb'_toNat, Nat.shiftRight_eq_div_pow]

theorem fieldRs1_toNat (w : Word) : (fieldRs1 w).toNat = w.toNat / 2 ^ 16 % 2 ^ 4 := by
  simp only [fieldRs1, BitVec.extractLsb'_toNat, Nat.shiftRight_eq_div_pow]

theorem fieldRs2_toNat (w : Word) : (fieldRs2 w).toNat = w.toNat / 2 ^ 12 % 2 ^ 4 := by
  simp only [fieldRs2, BitVec.extractLsb'_toNat, Nat.shiftRight_eq_div_pow]

theorem fieldRsv_toNat (w : Word) : (fieldRsv w).toNat = w.toNat % 2 ^ 12 := by
  simp only [fieldRsv, BitVec.extractLsb'_toNat, Nat.shiftRight_eq_div_pow, Nat.pow_zero, Nat.div_one]

/-! ## The encoder -/

theorem placed_toNat (f : RegField) {lo : Nat} (h : lo ≤ 28) : (placed f lo).toNat = f.toNat * 2 ^ lo := by
  have lt : f.toNat * 2 ^ lo < 2 ^ 32 := by
    calc f.toNat * 2 ^ lo < 2 ^ 4 * 2 ^ lo := Nat.mul_lt_mul_of_pos_right f.isLt (by positivity)
      _ = 2 ^ (4 + lo) := (pow_add 2 4 lo).symm
      _ ≤ 2 ^ 32 := Nat.pow_le_pow_right (by decide) (by omega)
  have wide : f.toNat < 2 ^ 32 := f.isLt.trans (by decide)
  rw [placed, BitVec.toNat_shiftLeft, BitVec.toNat_setWidth, Nat.mod_eq_of_lt wide, Nat.shiftLeft_eq,
    Nat.mod_eq_of_lt lt]

/-- Placing a field below a word whose lower bits are 0 adds it. -/
theorem or_eq_add {x y k : Nat} (hx : 2 ^ k ∣ x) (hy : y < 2 ^ k) : x ||| y = x + y := by
  obtain ⟨a, rfl⟩ := hx
  exact (Nat.two_pow_add_eq_or_of_lt hy a).symm

/-- The natural an encoded two-source command is (R58). -/
theorem or_placed_three {opc : Word} {n : Nat} (hopc : opc.toNat = n * 2 ^ 24) (rd rs1 rs2 : RegField) :
    (opc ||| placed rd 20 ||| placed rs1 16 ||| placed rs2 12).toNat =
      n * 2 ^ 24 + rd.toNat * 2 ^ 20 + rs1.toNat * 2 ^ 16 + rs2.toNat * 2 ^ 12 := by
  have h1 := rd.isLt
  have h2 := rs1.isLt
  have h3 := rs2.isLt
  rw [BitVec.toNat_or, BitVec.toNat_or, BitVec.toNat_or, hopc, placed_toNat _ (by decide), placed_toNat _ (by decide),
    placed_toNat _ (by decide), or_eq_add (x := n * 2 ^ 24) (k := 24) (by omega) (by omega),
    or_eq_add (x := n * 2 ^ 24 + rd.toNat * 2 ^ 20) (k := 20) (by omega) (by omega),
    or_eq_add (x := n * 2 ^ 24 + rd.toNat * 2 ^ 20 + rs1.toNat * 2 ^ 16) (k := 16) (by omega) (by omega)]

/-- The natural an encoded one-source command is (R58). -/
theorem or_placed_two {opc : Word} {n : Nat} (hopc : opc.toNat = n * 2 ^ 24) (rd rs1 : RegField) :
    (opc ||| placed rd 20 ||| placed rs1 16).toNat = n * 2 ^ 24 + rd.toNat * 2 ^ 20 + rs1.toNat * 2 ^ 16 := by
  have h1 := rd.isLt
  have h2 := rs1.isLt
  rw [BitVec.toNat_or, BitVec.toNat_or, hopc, placed_toNat _ (by decide), placed_toNat _ (by decide),
    or_eq_add (x := n * 2 ^ 24) (k := 24) (by omega) (by omega),
    or_eq_add (x := n * 2 ^ 24 + rd.toNat * 2 ^ 20) (k := 20) (by omega) (by omega)]

/-- The opcode of each command (R58). -/
def opcodeOf : Instr → Nat
  | .nop => 0
  | .modmul _ _ _ => 1
  | .modinv _ _ => 2
  | .modsqrt _ _ => 3
  | .modexp _ _ _ => 4

/-- The `RD`, `RS1` and `RS2` fields of each command, 0 where its format has none (R55). -/
def fieldsOf : Instr → Nat × Nat × Nat
  | .nop => (0, 0, 0)
  | .modmul rd rs1 rs2 => (rd.toNat, rs1.toNat, rs2.toNat)
  | .modinv rd rs1 => (rd.toNat, rs1.toNat, 0)
  | .modsqrt rd rs1 => (rd.toNat, rs1.toNat, 0)
  | .modexp rd rs1 rs2 => (rd.toNat, rs1.toNat, rs2.toNat)

/-- The natural each command's word is (R54, R58). -/
theorem encode_toNat (i : Instr) :
    (encode i).toNat =
      opcodeOf i * 2 ^ 24 + (fieldsOf i).1 * 2 ^ 20 + (fieldsOf i).2.1 * 2 ^ 16 + (fieldsOf i).2.2 * 2 ^ 12 := by
  cases i with
  | nop => rfl
  | modmul rd rs1 rs2 => exact or_placed_three (n := 1) (by decide) rd rs1 rs2
  | modinv rd rs1 => rw [encode, or_placed_two (n := 2) (by decide) rd rs1]; simp only [opcodeOf, fieldsOf, Nat.zero_mul, Nat.add_zero]
  | modsqrt rd rs1 => rw [encode, or_placed_two (n := 3) (by decide) rd rs1]; simp only [opcodeOf, fieldsOf, Nat.zero_mul, Nat.add_zero]
  | modexp rd rs1 rs2 => exact or_placed_three (n := 4) (by decide) rd rs1 rs2

/-! ## The opcode table's masks -/

/-- The bits a mask keeps, field by field: the mask `m` of a row keeps of a word the field values that its own fields
keep. -/
theorem and_toNat_fields (w m : Word) :
    (w &&& m).toNat =
      ((fieldOpc w) &&& (fieldOpc m)).toNat * 2 ^ 24 + ((fieldRd w) &&& (fieldRd m)).toNat * 2 ^ 20 +
        ((fieldRs1 w) &&& (fieldRs1 m)).toNat * 2 ^ 16 + ((fieldRs2 w) &&& (fieldRs2 m)).toNat * 2 ^ 12 +
        ((fieldRsv w) &&& (fieldRsv m)).toNat := by
  have o : (fieldOpc w) &&& (fieldOpc m) = fieldOpc (w &&& m) := (BitVec.extractLsb'_and ..).symm
  have d : (fieldRd w) &&& (fieldRd m) = fieldRd (w &&& m) := (BitVec.extractLsb'_and ..).symm
  have a : (fieldRs1 w) &&& (fieldRs1 m) = fieldRs1 (w &&& m) := (BitVec.extractLsb'_and ..).symm
  have b : (fieldRs2 w) &&& (fieldRs2 m) = fieldRs2 (w &&& m) := (BitVec.extractLsb'_and ..).symm
  have r : (fieldRsv w) &&& (fieldRsv m) = fieldRsv (w &&& m) := (BitVec.extractLsb'_and ..).symm
  rw [o, d, a, b, r, fieldOpc_toNat, fieldRd_toNat, fieldRs1_toNat, fieldRs2_toNat, fieldRsv_toNat]
  have := (w &&& m).isLt
  omega

end Sys2Proof
end

