-- ==== Sys2Proof/Laws/PerInstr.lean ====
section
/-! SUPPORT. A law of every constructor of `Instr`, one lemma each: its encoding lies in its row of the opcode table (R58). -/

namespace Sys2Proof.Laws.EncodingFitsTable

/-- The encoding of a well-formed command is the command in its own row: `(w & mask) = match` (R58). -/
def Statement (i : Instr) : Prop := i.wellFormed = true → encode i &&& tableMask i = tableMatch i

/-- Both masks of the table clear a field that names a register (R58: bit 3 of a used field must be 0). -/
theorem masked_field {f : RegField} (hf : f.toNat ≤ 7) :
    placed f 20 &&& 0xFF888FFF = 0 ∧ placed f 16 &&& 0xFF888FFF = 0 ∧ placed f 12 &&& 0xFF888FFF = 0 ∧
      placed f 20 &&& 0xFF88FFFF = 0 ∧ placed f 16 &&& 0xFF88FFFF = 0 := by
  revert f; decide

theorem nop : Statement .nop := fun _ => rfl

theorem modmul (rd rs1 rs2 : RegField) : Statement (.modmul rd rs1 rs2) := by
  intro wf
  simp only [Instr.wellFormed, Instr.fields, List.all_cons, List.all_nil, Bool.and_true, Bool.and_eq_true,
    decide_eq_true_eq] at wf
  obtain ⟨hd, h1, h2⟩ := wf
  simp only [encode, tableMask, tableMatch, BitVec.and_or_distrib_right, masked_field hd, masked_field h1,
    masked_field h2]
  decide

theorem modinv (rd rs1 : RegField) : Statement (.modinv rd rs1) := by
  intro wf
  simp only [Instr.wellFormed, Instr.fields, List.all_cons, List.all_nil, Bool.and_true, Bool.and_eq_true,
    decide_eq_true_eq] at wf
  obtain ⟨hd, h1⟩ := wf
  simp only [encode, tableMask, tableMatch, BitVec.and_or_distrib_right, masked_field hd, masked_field h1]
  decide

theorem modsqrt (rd rs1 : RegField) : Statement (.modsqrt rd rs1) := by
  intro wf
  simp only [Instr.wellFormed, Instr.fields, List.all_cons, List.all_nil, Bool.and_true, Bool.and_eq_true,
    decide_eq_true_eq] at wf
  obtain ⟨hd, h1⟩ := wf
  simp only [encode, tableMask, tableMatch, BitVec.and_or_distrib_right, masked_field hd, masked_field h1]
  decide

theorem modexp (rd rs1 rs2 : RegField) : Statement (.modexp rd rs1 rs2) := by
  intro wf
  simp only [Instr.wellFormed, Instr.fields, List.all_cons, List.all_nil, Bool.and_true, Bool.and_eq_true,
    decide_eq_true_eq] at wf
  obtain ⟨hd, h1, h2⟩ := wf
  simp only [encode, tableMask, tableMatch, BitVec.and_or_distrib_right, masked_field hd, masked_field h1,
    masked_field h2]
  decide

end Sys2Proof.Laws.EncodingFitsTable
end

