-- ==== Sys2Proof/Laws/Run.lean ====
section
/-! SUPPORT. Runs of several steps: one step at a time, and the induction over a run, said once. -/

namespace Sys2Proof.Machine

theorem run_zero (s : State) : core.run 0 s = .next s := rfl

theorem run_succ_of_next {n : Nat} {s t : State} (h : step s = .next t) : core.run (n + 1) s = core.run n t := by
  have unfolded := Host.Core.run.eq_2 core s n
  rw [show core.step s = .next t from h] at unfolded
  exact unfolded

/-- A run of `n + 1` steps that reaches a state takes one step and runs on. -/
theorem run_succ_cases {n : Nat} {s u : State} (h : core.run (n + 1) s = .next u) :
    ∃ t, step s = .next t ∧ core.run n t = .next u := by
  cases hs : step s with
  | next t => exact ⟨t, rfl, (run_succ_of_next hs).symm.trans h⟩
  | fault r =>
    have unfolded := Host.Core.run.eq_2 core s n
    rw [show core.step s = .fault r from hs, h] at unfolded
    cases unfolded
  | refused r =>
    have unfolded := Host.Core.run.eq_2 core s n
    rw [show core.step s = .refused r from hs, h] at unfolded
    cases unfolded

/-- What every step keeps, every run keeps. -/
theorem run_keeps {P : State → Prop} (keeps : ∀ s t, P s → step s = .next t → P t) {n : Nat} {s t : State} (hs : P s)
    (h : core.run n s = .next t) : P t := by
  induction n generalizing s with
  | zero =>
    rw [run_zero] at h
    cases h
    exact hs
  | succ n ih =>
    obtain ⟨u, hu, rest⟩ := run_succ_cases h
    exact ih (keeps s u hs hu) rest

end Sys2Proof.Machine
end

