-- ==== Sys2Proof/Laws/Sqrt.lean ====
section
/-! SUPPORT. `SqrtProc` for a prime modulus (R79, R80, R81): Euler's criterion, the non-residue search and the
Tonelli–Shanks loop, read in the field of integers modulo `p`. -/

namespace Sys2Proof.Machine

section Prime

variable {p : Nat} [Fact p.Prime]

@[simp] theorem cast_powMod (a e : Nat) : ((powMod a e p : Nat) : ZMod p) = (a : ZMod p) ^ e := by
  rw [powMod_eq, ZMod.natCast_mod, Nat.cast_pow]

@[simp] theorem cast_mod_self (a : Nat) : ((a % p : Nat) : ZMod p) = (a : ZMod p) := ZMod.natCast_mod a p

/-- Two naturals below `p` are equal when they are equal modulo `p`. -/
theorem eq_of_cast_eq {a b : Nat} (ha : a < p) (hb : b < p) (h : (a : ZMod p) = (b : ZMod p)) : a = b :=
  ((ZMod.natCast_eq_natCast_iff a b p).1 h).eq_of_lt_of_lt ha hb

theorem one_lt_prime : 1 < p := (Fact.out : p.Prime).one_lt

theorem cast_pred : ((p - 1 : Nat) : ZMod p) = -1 := by
  rw [Nat.cast_sub one_lt_prime.le, Nat.cast_one, CharP.cast_eq_zero, zero_sub]

theorem powMod_eq_one_iff (a e : Nat) : powMod a e p = 1 ↔ (a : ZMod p) ^ e = 1 := by
  rw [← cast_powMod]
  refine ⟨fun h => by simp [h], fun h => ?_⟩
  exact eq_of_cast_eq (powMod_lt _ _ one_lt_prime.le) one_lt_prime (by simpa using h)

theorem powMod_eq_pred_iff (a e : Nat) : powMod a e p = p - 1 ↔ (a : ZMod p) ^ e = -1 := by
  rw [← cast_powMod, ← cast_pred]
  have := one_lt_prime (p := p)
  exact ⟨fun h => by rw [h], fun h => eq_of_cast_eq (powMod_lt _ _ (by omega)) (by omega) h⟩

omit [Fact p.Prime] in
theorem half_eq (odd : p % 2 = 1) : (p - 1) / 2 = p / 2 := by omega

/-- Euler's criterion for a residue (R81, G2). -/
theorem euler_residue (odd : p % 2 = 1) {a : Nat} (ha : (a : ZMod p) ≠ 0) :
    (a : ZMod p) ^ ((p - 1) / 2) = 1 ↔ IsSquare (a : ZMod p) := by
  rw [half_eq odd]; exact (ZMod.euler_criterion p ha).symm

/-- Euler's criterion for a non-residue (R81, G2). -/
theorem euler_nonResidue (odd : p % 2 = 1) {a : Nat} (ha : (a : ZMod p) ≠ 0) :
    (a : ZMod p) ^ ((p - 1) / 2) = -1 ↔ ¬IsSquare (a : ZMod p) := by
  have three : Fact (2 < p) := ⟨by have := one_lt_prime (p := p); omega⟩
  rw [← euler_residue odd ha]
  constructor
  · intro h; rw [h]; exact ZMod.neg_one_ne_one
  · intro h
    rw [half_eq odd] at h ⊢
    exact (ZMod.pow_div_two_eq_neg_one_or_one p ha).resolve_left h

/-- The search of R80 step 4 finds a non-residue when one lies between its candidate and `Z_MAX`. -/
theorem findNonResidue_prime (odd : p % 2 = 1) (k z y : Nat) (hz : 2 ≤ z) (hzy : z ≤ y) (hy : y ≤ Config.zMax)
    (hyp : y < p) (hk : y < z + k) (non : ¬IsSquare (y : ZMod p)) :
    ∃ x, findNonResidue k z ((p - 1) / 2) p = some x ∧ ¬IsSquare (x : ZMod p) := by
  induction k generalizing z with
  | zero => omega
  | succ k ih =>
    have nz : (z : ZMod p) ≠ 0 := fun h => by
      have := eq_of_cast_eq (p := p) (a := z) (b := 0) (by omega) (by omega) (by simpa using h)
      omega
    rw [findNonResidue, if_neg (by omega)]
    by_cases sq : IsSquare (z : ZMod p)
    · have euler := (euler_residue odd nz).2 sq
      have ne : z ≠ y := fun e => non (e ▸ sq)
      rw [if_neg (fun h => (euler_nonResidue odd nz).1 ((powMod_eq_pred_iff _ _).1 h) sq),
        if_neg (not_not.2 ((powMod_eq_one_iff _ _).2 euler))]
      exact ih (z + 1) (by omega) (by omega) (by omega)
    · rw [if_pos ((powMod_eq_pred_iff _ _).2 ((euler_nonResidue odd nz).2 sq))]
      exact ⟨z, rfl, sq⟩

/-- The Tonelli–Shanks loop of R80 step 5. It keeps `c^(2^(m-1)) = -1`, `t^(2^(m-1)) = 1` and `r² = a·t`, so it ends with a
root of `a`. -/
theorem tonelliLoop_root (a : ZMod p) (k m c t r : Nat) (hm : 1 ≤ m) (hk : m ≤ k) (ht : t < p)
    (hc : (c : ZMod p) ^ 2 ^ (m - 1) = -1) (h1 : (t : ZMod p) ^ 2 ^ (m - 1) = 1)
    (hr : (r : ZMod p) ^ 2 = a * t) :
    ∃ x, tonelliLoop k m c t r p = some x ∧ (x : ZMod p) ^ 2 = a := by
  induction k generalizing m c t r with
  | zero => omega
  | succ k ih =>
    rw [tonelliLoop]
    by_cases t1 : t = 1
    · rw [if_pos t1]
      exact ⟨r, rfl, by simpa [t1] using hr⟩
    · rw [if_neg t1]
      have tne : (t : ZMod p) ≠ 1 := fun h =>
        t1 (eq_of_cast_eq ht one_lt_prime (by simpa using h))
      have m2 : 2 ≤ m := by
        by_contra small
        have : m = 1 := by omega
        rw [this] at h1
        exact tne (by simpa using h1)
      obtain ⟨i, found⟩ := leastOrder_isSome (t := t) (m := m) (p := p) (i := m - 1) (by omega) le_rfl
        ((powMod_eq_one_iff _ _).2 h1)
      obtain ⟨i1, im, order, least⟩ := leastOrder_eq_some found
      rw [found]
      rw [powMod_eq_one_iff] at order
      have root : (t : ZMod p) ^ 2 ^ (i - 1) = -1 := by
        have sq : ((t : ZMod p) ^ 2 ^ (i - 1)) ^ 2 = 1 := by
          rw [← pow_mul, ← pow_succ, Nat.sub_add_cancel i1]; exact order
        rw [pow_two] at sq
        refine (mul_self_eq_one_iff.1 sq).resolve_left fun one => ?_
        by_cases first : i = 1
        · rw [first] at one; exact tne (by simpa using one)
        · exact least (i - 1) (by omega) (by omega) ((powMod_eq_one_iff _ _).2 one)
      have square : ((powMod c (2 ^ (m - i - 1)) p : Nat) : ZMod p) ^ 2 = (c : ZMod p) ^ 2 ^ (m - i) := by
        rw [cast_powMod, ← pow_mul, ← pow_succ]
        congr 2; omega
      have newC : (((powMod c (2 ^ (m - i - 1)) p * powMod c (2 ^ (m - i - 1)) p % p : Nat) : ZMod p)) =
          (c : ZMod p) ^ 2 ^ (m - i) := by
        rw [cast_mod_self, Nat.cast_mul, ← pow_two, square]
      have minus : ((c : ZMod p) ^ 2 ^ (m - i)) ^ 2 ^ (i - 1) = -1 := by
        rw [← pow_mul, ← pow_add, ← hc]
        congr 2; omega
      refine ih i _ _ _ i1 (by omega) (Nat.mod_lt _ one_lt_prime.le) ?_ ?_ ?_
      · rw [newC, minus]
      · rw [cast_mod_self, Nat.cast_mul, newC, mul_pow, root, minus]; ring
      · rw [cast_mod_self, Nat.cast_mul, mul_pow, hr, square, cast_mod_self, Nat.cast_mul, newC]; ring

/-- `finishRoot` returns the canonical root (R79) when it is given a root. -/
theorem finishRoot_root (odd : p % 2 = 1) {a r : Nat} (ha : a < p) (hr : r < p) (root : (r : ZMod p) ^ 2 = (a : ZMod p)) :
    ∃ v, finishRoot a r p = .okValue v ∧ v * v % p = a ∧ v ≤ (p - 1) / 2 := by
  have verified : r * r % p = a := by
    refine eq_of_cast_eq (Nat.mod_lt _ one_lt_prime.le) ha ?_
    rw [cast_mod_self, Nat.cast_mul, ← pow_two, root]
  have some : ∃ v, finishRoot a r p = .okValue v := by
    rw [finishRoot, if_neg (not_not.2 verified)]
    split <;> exact ⟨_, rfl⟩
  obtain ⟨v, hv⟩ := some
  exact ⟨v, hv, finishRoot_okValue odd hr hv⟩

/-- After Euler's criterion, `SqrtProc` returns the canonical root when `powmod(a, q, p) = 1` (R81(c)) or when a non-residue
lies in `2` to `Z_MAX` (R81(d)). -/
theorem sqrtAfterEuler_prime (odd : p % 2 = 1) {a : Nat} (ha : a < p) (euler : (a : ZMod p) ^ ((p - 1) / 2) = 1)
    (cases : powMod a (oddPart (p - 1)).1 p = 1 ∨
      ∃ y, 2 ≤ y ∧ y ≤ Config.zMax ∧ y < p ∧ ¬IsSquare (y : ZMod p)) :
    ∃ v, sqrtAfterEuler a p = .okValue v ∧ v * v % p = a ∧ v ≤ (p - 1) / 2 := by
  have big := one_lt_prime (p := p)
  obtain ⟨qOdd, prod⟩ := oddPart_spec (n := p - 1) (by omega)
  have sPos := oddPart_exponent_pos (n := p - 1) (by omega) (by omega)
  rw [sqrtAfterEuler]
  generalize oddPart (p - 1) = qs at *
  obtain ⟨q, s⟩ := qs
  simp only at *
  have halfProd : q * 2 ^ (s - 1) = (p - 1) / 2 := by
    rw [← prod, ← Nat.sub_add_cancel sPos, pow_succ]; simp [← Nat.mul_assoc]
  have start : ((powMod a ((q + 1) / 2) p : Nat) : ZMod p) ^ 2 = (a : ZMod p) * ((powMod a q p : Nat) : ZMod p) := by
    rw [cast_powMod, cast_powMod, ← pow_mul, ← pow_succ']
    congr 1; omega
  split
  next t1 => exact finishRoot_root odd ha (powMod_lt _ _ big.le) (by simpa [t1] using start)
  next t1 =>
    obtain ⟨y, y2, yMax, yp, non⟩ := cases.resolve_left t1
    obtain ⟨z, found, nonZ⟩ := findNonResidue_prime odd Config.zMax 2 y le_rfl y2 yMax yp (by omega) non
    have zNe : (z : ZMod p) ≠ 0 := fun h => nonZ (h ▸ ⟨0, by simp⟩)
    have minus : ((powMod z q p : Nat) : ZMod p) ^ 2 ^ (s - 1) = -1 := by
      rw [cast_powMod, ← pow_mul, halfProd]; exact (euler_nonResidue odd zNe).2 nonZ
    have one : ((powMod a q p : Nat) : ZMod p) ^ 2 ^ (s - 1) = 1 := by
      rw [cast_powMod, ← pow_mul, halfProd]; exact euler
    obtain ⟨x, loop, root⟩ := tonelliLoop_root (p := p) (a : ZMod p) s s (powMod z q p) (powMod a q p)
      (powMod a ((q + 1) / 2) p) sPos le_rfl (powMod_lt _ _ big.le) minus one start
    simp only [found, loop]
    exact finishRoot_root odd ha
      (tonelliLoop_lt _ _ _ _ _ _ _ big.le (powMod_lt _ _ big.le) loop) root

end Prime

end Sys2Proof.Machine
end

