-- ==== Sys2Proof/Tests/Slice0.lean ====
section
/-! SUPPORT. Tests: words written out from R58, ill-formed commands, the spec's own vectors (95_test_vectors.md), and for every
statement with hypotheses a witness that meets them together. -/

namespace Sys2Proof.Tests

open Sys2Proof.Machine

/-! One theorem at a time: elaborated side by side, the kernel's evaluations hold more memory at once than the check allows. -/
set_option Elab.async false

/-! ## Helpers -/

/-- An idle unit with this modulus and these values in `R0` and `R1`. -/
def unit (p a b : Nat) : State :=
  { State.reset with
    mod := BitVec.ofNat 2048 p
    regs := (State.reset.regs.set 0 (BitVec.ofNat 2048 a)).set 1 (BitVec.ofNat 2048 b) }

/-- The unit with these values and this command word in flight, the engine's step next. -/
def inFlight (p a b w : Nat) : State := (unit p a b).withFetchWord 32 w

/-- The unit with these events to come. -/
def unitBefore (es : List Event) (p a b : Nat) : State :=
  { unit p a b with env := { Env.quiet with schedule := es } }

/-- A host at the start of a script. -/
def hostOf (script : List HostStmt) : HostAgent :=
  { script := script, hpc := 0, sub := 0, acc := 0, vars := [], halted := false }

/-- The unit with one host and these events to come. -/
def unitWithHost (script : List HostStmt) (es : List Event) : State :=
  { State.reset with env := { Env.quiet with schedule := es, hosts := [hostOf script] } }

/-- The outcome is a next state with this property. -/
def nextHas (o : Host.Outcome State Fault Refusal) (p : State → Bool) : Bool :=
  match o with
  | .next t => p t
  | .fault _ => false
  | .refused _ => false

/-- The step writes this value to `R[rd]` and leaves this `STATUS` (the form of the vectors of L2). -/
def stepGives (s : State) (rd : RegField) (v status : Nat) : Bool :=
  nextHas (step s) fun t => t.regNat rd == v && t.statusWord.toNat == status

/-! ## Decoding: words written out field by field from R54 and R58 -/

theorem test_decode_nop : decode 0b00000000_0000_0000_0000_000000000000 = .cmd .nop := by decide
theorem test_decode_modmul : decode 0b00000001_0111_0000_0101_000000000000 = .cmd (.modmul 7 0 5) := by decide
theorem test_decode_modinv : decode 0b00000010_0001_0110_0000_000000000000 = .cmd (.modinv 1 6) := by decide
theorem test_decode_modsqrt : decode 0b00000011_0011_0111_0000_000000000000 = .cmd (.modsqrt 3 7) := by decide
theorem test_decode_modexp : decode 0b00000100_0111_0110_0101_000000000000 = .cmd (.modexp 7 6 5) := by decide

/-- R58's examples the other way. -/
theorem test_encode_examples :
    encode (.modmul 2 0 1) = 0x01201000 ∧ encode (.modinv 1 0) = 0x02100000 ∧ encode (.modsqrt 3 3) = 0x03330000 ∧
      encode (.modexp 7 6 5) = 0x04765000 ∧ encode .nop = 0 := by decide

/-- L2.2: words with one bad field each, and the first and last reserved opcodes. -/
theorem test_decode_illegal :
    decode 0x00000001 = .illegalOperand ∧ decode 0x00100000 = .illegalOperand ∧ decode 0x01801000 = .illegalOperand ∧
      decode 0x01281000 = .illegalOperand ∧ decode 0x01208000 = .illegalOperand ∧ decode 0x01201001 = .illegalOperand ∧
      decode 0x01201800 = .illegalOperand ∧ decode 0x02201000 = .illegalOperand ∧ decode 0x03202000 = .illegalOperand ∧
      decode 0x05000000 = .illegalOpcode ∧ decode 0xFFFFFFFF = .illegalOpcode := by decide

theorem test_decodeTableWord :
    decodeTableWord 32 0x04210000 = some (.modexp 2 1 0) ∧ decodeTableWord 32 0x05000000 = none := by decide

/-! ## Well-formedness: each register field of each command out of range -/

theorem test_illFormed_modmul :
    Instr.wellFormed (.modmul 8 0 0) = false ∧ Instr.wellFormed (.modmul 0 8 0) = false ∧
      Instr.wellFormed (.modmul 0 0 8) = false := by decide
theorem test_illFormed_modinv :
    Instr.wellFormed (.modinv 8 0) = false ∧ Instr.wellFormed (.modinv 0 15) = false := by decide
theorem test_illFormed_modsqrt :
    Instr.wellFormed (.modsqrt 15 0) = false ∧ Instr.wellFormed (.modsqrt 0 8) = false := by decide
theorem test_illFormed_modexp :
    Instr.wellFormed (.modexp 8 0 0) = false ∧ Instr.wellFormed (.modexp 0 8 0) = false ∧
      Instr.wellFormed (.modexp 0 0 8) = false := by decide

/-! ## One step of each command, with the spec's examples -/

/-- R71: after reset, `NOP` leaves `STATUS = 0x00000002`. -/
theorem test_nop_after_reset : stepGives (State.reset.withFetchWord 32 0) 0 0 0x02 = true := by decide +kernel

/-- R73: 489 · 2 mod 977 = 1. -/
theorem test_modmul : stepGives (inFlight 977 489 2 0x01201000) 2 1 0x42 = true := by decide +kernel

/-- R73: `(2^2048-1)·(2^2048-1) mod 977 = 268`, squared in place. -/
theorem test_modmul_unreduced : stepGives (inFlight 977 (2 ^ 2048 - 1) 0 0x01000000) 0 268 0x42 = true := by
  decide +kernel

/-- R76: the inverse of 7 modulo 15 is 13. -/
theorem test_modinv_composite : stepGives (inFlight 15 7 0 0x02100000) 1 13 0x42 = true := by decide +kernel

/-- R76: 6 has no inverse modulo 15, and `R1` keeps its value. -/
theorem test_modinv_none : stepGives (inFlight 15 6 489 0x02100000) 1 489 0x444 = true := by decide +kernel

/-- R82: the canonical root of 2 modulo 977 is 212; the whole Tonelli–Shanks loop runs. -/
theorem test_modsqrt : stepGives (inFlight 977 2 0 0x03100000) 1 212 0x42 = true := by decide +kernel

/-- R83: for the composite modulus 91 the root of 9 is 10. -/
theorem test_modsqrt_composite : stepGives (inFlight 91 9 0 0x03100000) 1 10 0x42 = true := by decide +kernel

/-- R88: `5^(2^2048-1) mod 977 = 711`, with the whole exponent. -/
theorem test_modexp_whole : stepGives (inFlight 977 5 (2 ^ 2048 - 1) 0x04201000) 2 711 0x42 = true := by decide +kernel

/-- R87: `0^0 = 1`. -/
theorem test_modexp_zero : stepGives (inFlight 977 0 0 0x04000000) 0 1 0x42 = true := by decide +kernel

/-- L2.2: an illegal word ends with its error, ahead of `BAD_MODULUS` (R95). -/
theorem test_illegal_before_badModulus :
    stepGives (inFlight 0 2 3 0x07F00ABC) 0 2 0x104 = true ∧ stepGives (inFlight 0 2 3 0x01801000) 0 2 0x204 = true ∧
      stepGives (inFlight 0 2 3 0x01000000) 0 2 0x304 = true := by decide +kernel

/-! ## The register interface (L2.1, L2.3) -/

/-- L2.1 rows 4 to 7: a read-only register, a misaligned read, a partial write, and a window word. -/
theorem test_interface_rows :
    ((State.reset.memWrite 0x000 0x12345678 0b1111).memRead 0x000).1 = 0x44504B4D ∧
      (State.reset.memRead 0x102).2.statusWord = 0x10 ∧ (State.reset.memWrite 0x1FC 0x3D1 0b0011).mod = 0 ∧
      (State.reset.memWrite 0x1FC 0x3D1 0b1111).mod = 977 ∧
      (State.reset.memWrite 0x1FC 0x3D1 0b1111).statusWord = 0x40 := by decide +kernel

/-- L2.1 rows 8 and 9 (R38): the most significant word is at the lowest offset. -/
theorem test_window_order :
    (({ State.reset with regs := State.reset.regs.set 1 0x0123456789ABCDEF }).memRead 0x3F8).1 = 0x01234567 ∧
      (({ State.reset with regs := State.reset.regs.set 1 0x0123456789ABCDEF }).memRead 0x3FC).1 = 0x89ABCDEF ∧
      (State.reset.memWrite 0x900 1 0b1111).regs[7] = BitVec.ofNat 2048 (2 ^ 2016) := by decide +kernel

/-- L2.3 rows 8 to 10: a refused command and a blocked window write leave the command in flight as it was. -/
theorem test_busy_refuses :
    nextHas (step (((inFlight 977 2 0 0x02100000).transact (.write 0x010 0 0b1111)).transact
      (.write 0x2FC 7 0b1111))) (fun t => t.regNat 1 == 489 && t.regNat 0 == 2 && t.statusWord == 0x5A) = true := by
  decide +kernel

/-- R27: the three fields of `PARAM` are the parameters the model uses. -/
theorem test_param_fields :
    (Config.paramWord.extractLsb' 0 16).toNat = Config.operandWidth ∧
      (Config.paramWord.extractLsb' 16 8).toNat = Config.numRegs ∧
      2 ^ (Config.paramWord.extractLsb' 24 8).toNat = Config.zMax := by decide +kernel

/-- R60, R61: a mnemonic in any case, a comment, the pseudo-command, and three assembly errors. -/
theorem test_assemble :
    assembleWord ['m', 'o', 'd', 'm', 'u', 'l', ' ', 'r', '2', ',', ' ', 'R', '0', ',', 'r', '1', ';', 'x'] =
        some 0x01201000 ∧
      assembleWord ['M', 'O', 'D', 'S', 'Q', 'R', ' ', 'r', '4', ',', 'r', '1'] = some 0x01411000 ∧
      assembleWord ['N', 'O', 'P'] = some 0 ∧
      assembleWord ['M', 'O', 'D', 'I', 'N', 'V', ' ', 'r', '8', ',', 'r', '1'] = none ∧
      assembleWord ['M', 'O', 'D', 'I', 'N', 'V', ' ', 'r', '1'] = none ∧
      assembleWord ['M', 'O', 'D', 'E', 'X', 'P', ' ', 'r', '1', ',', 'r', '2', ','] = none := by decide +kernel

/-- R60: the text of a command, and a name outside `r0` to `r7`. -/
theorem test_commandText :
    commandText (.modmul 2 0 7) = ['M', 'O', 'D', 'M', 'U', 'L', ' ', 'r', '2', ',', 'r', '0', ',', 'r', '7'] ∧
      commandText (.modinv 8 15) = ['M', 'O', 'D', 'I', 'N', 'V', ' ', 'r', '8', ',', 'r', '1', '5'] := by decide +kernel

/-- L1.8: with `b = 493`, the canonical root 261 and `inv2a = 570`, the candidates modulo 977 are 100 and 632. -/
theorem test_candidates : candidates 493 261 570 977 = (100, 632) ∧ candidates 493 716 570 977 = (632, 100) := by decide

/-! ## Witnesses: the hypotheses of each statement hold together -/

theorem witness_EncodeThenDecode :
    ∀ i ∈ [.nop, .modmul 7 0 7, .modinv 0 7, .modsqrt 7 0, .modexp 0 7 0], Instr.wellFormed i = true := by decide

theorem witness_DecodeThenEncode :
    decode 0x00000000 = .cmd .nop ∧ decode 0x01777000 = .cmd (.modmul 7 7 7) ∧ decode 0x02000000 = .cmd (.modinv 0 0) ∧
      decode 0x03770000 = .cmd (.modsqrt 7 7) ∧ decode 0x04000000 = .cmd (.modexp 0 0 0) := by decide

theorem witness_AssembledCommandsAreWellFormed :
    assemble ['m', 'o', 'd', 'i', 'n', 'v', ' ', 'R', '7', ',', 'r', '0'] = some (.modinv 7 0) := by decide +kernel

/-- Well-formed lines and ill-formed ones. -/
theorem witness_CommandTextAssembles :
    (∀ i ∈ [.nop, .modmul 0 7 0, .modexp 7 0 7], Instr.wellFormed i = true) ∧
      ∀ i ∈ [.modinv 8 0, .modsqrt 0 15], Instr.wellFormed i = false := by decide

/-- Operand lists that are too short and too long. -/
theorem witness_PseudoCommandAndWrongLengths :
    (namesRegister 0 = true ∧ namesRegister 7 = true) ∧
      ([] : List RegField).all namesRegister = true ∧ [0, 7, 3, (1 : RegField)].all namesRegister = true ∧
      ([] : List RegField).length ≠ (Instr.modinv 0 0).fields.length ∧
      [0, 7, 3, (1 : RegField)].length ≠ (Instr.modmul 0 0 0).fields.length ∧
      [0, 7, 3, (1 : RegField)].length ≠ 2 := by decide

theorem witness_PseudoCommandSquares :
    namesRegister 0 = true ∧ namesRegister 7 = true ∧ (unit 3 2 0).mod.toNat % 2 = 1 ∧ 3 ≤ (unit 3 2 0).mod.toNat := by
  decide +kernel

/-- The smallest valid modulus and the largest, the first register and the last: the hypotheses of the statements about one
command on a valid modulus. -/
theorem witness_validModulus :
    ∀ s ∈ [unit 3 0 1, unit 977 489 2, unit (2 ^ 2048 - 1) 5 7],
      namesRegister 0 = true ∧ namesRegister 7 = true ∧ s.mod.toNat % 2 = 1 ∧ 3 ≤ s.mod.toNat := by decide +kernel

theorem witness_StepRunsDecodedCommand :
    (inFlight 977 489 2 0x01201000).env.resetApplied = true ∧ (inFlight 977 489 2 0x01201000).busy = true ∧
      (inFlight 977 489 2 0x01201000).EngineNext [] ∧
      decode (inFlight 977 489 2 0x01201000).lastCmd = .cmd (.modmul 2 0 1) := by decide +kernel

/-- The other way in which the engine moves next: no event is left. -/
theorem witness_StepRunsDecodedCommand_emptySchedule :
    ({ unit 977 489 2 with busy := true, lastCmd := 0x02100000 }).env.resetApplied = true ∧
      ({ unit 977 489 2 with busy := true, lastCmd := 0x02100000 }).EngineNext [] ∧
      decode 0x02100000 = .cmd (.modinv 1 0) := by decide +kernel

theorem witness_IllegalWordEndsWithItsError :
    (inFlight 0 0 0 0x05000000).env.resetApplied = true ∧ (inFlight 0 0 0 0x05000000).busy = true ∧
      (inFlight 0 0 0 0x05000000).EngineNext [] ∧ decode (inFlight 0 0 0 0x05000000).lastCmd = .illegalOpcode ∧
      decode (inFlight 0 0 0 0x00000001).lastCmd = .illegalOperand := by decide +kernel

/-- Each clause: an inverse, none, a multiple of the modulus, and a prime modulus. -/
theorem witness_ModinvWritesInverseOrFails :
    Nat.gcd ((unit 15 7 6).regNat 0 % (unit 15 7 6).mod.toNat) (unit 15 7 6).mod.toNat = 1 ∧
      Nat.gcd ((unit 15 7 6).regNat 1 % (unit 15 7 6).mod.toNat) (unit 15 7 6).mod.toNat ≠ 1 ∧
      (unit 15 30 0).regNat 0 % (unit 15 30 0).mod.toNat = 0 := by decide +kernel

theorem witness_primeModulus : (unit 17 2 3).mod.toNat.Prime ∧ (unit 17 2 3).mod.toNat % 2 = 1 := by
  rw [show (unit 17 2 3).mod.toNat = 17 by decide +kernel]; decide

/-- `2a mod p` for `a = 3`, and for `a = 17`, a multiple of the modulus. -/
theorem witness_SingularQuadraticReported :
    (unit 17 6 0).mod.toNat.Prime ∧ (unit 17 6 0).mod.toNat % 2 = 1 ∧
      (unit 17 6 0).regNat 0 = 2 * 3 % (unit 17 6 0).mod.toNat ∧
      (unit 17 6 0).regNat 1 = 2 * 17 % (unit 17 6 0).mod.toNat := by
  refine ⟨?_, by decide +kernel⟩
  rw [show (unit 17 6 0).mod.toNat = 17 by decide +kernel]
  decide

/-- A root is written for 2 modulo 17, and none for 3. -/
theorem witness_NoQuadraticResidueReported :
    (unit 17 2 3).mod.toNat.Prime ∧ (unit 17 2 3).mod.toNat % 2 = 1 ∧ namesRegister 0 = true ∧ namesRegister 7 = true ∧
      nextHas (exec (.modsqrt 7 0) (unit 17 2 3)) (fun t => t.errCode == 0) = true ∧
      nextHas (exec (.modsqrt 7 1) (unit 17 2 3)) (fun t => t.errCode == 5) = true ∧ 17 ≤ (unit 17 2 3).mod.toNat :=
  ⟨witness_primeModulus.1, by decide +kernel⟩

/-- A multiple of the modulus, and a non-residue. -/
theorem witness_ModsqrtPrime_zero_and_nonResidue :
    ∃ s : State, s = unit 17 34 3 ∧ s.regNat 0 % s.mod.toNat = 0 ∧
      ¬IsSquare (s.regNat 1 : ZMod s.mod.toNat) := by
  refine ⟨_, rfl, by decide +kernel, ?_⟩
  have nonResidue : ∀ s : State, s.mod.toNat = 17 → s.regNat 1 = 3 → ¬IsSquare (s.regNat 1 : ZMod s.mod.toNat) := by
    intro s hp ha
    rw [ha, hp]; decide
  exact nonResidue _ (by decide +kernel) (by decide +kernel)

/-- A residue whose root needs no non-residue: `2^3 = 8 ≡ 1 (mod 7)`. -/
theorem witness_ModsqrtPrime_oddPart :
    ∃ s : State, s = unit 7 2 0 ∧ s.regNat 0 % s.mod.toNat ≠ 0 ∧ IsSquare (s.regNat 0 : ZMod s.mod.toNat) ∧
      ∃ q k : Nat, q % 2 = 1 ∧ q * 2 ^ k = s.mod.toNat - 1 ∧ s.regNat 0 ^ q % s.mod.toNat = 1 := by
  refine ⟨_, rfl, by decide +kernel, ?_, 3, 1, by decide +kernel⟩
  have residue : ∀ s : State, s.mod.toNat = 7 → s.regNat 0 = 2 → IsSquare (s.regNat 0 : ZMod s.mod.toNat) := by
    intro s hp ha
    rw [ha, hp]; decide
  exact residue _ (by decide +kernel) (by decide +kernel)

/-- A residue whose root needs one: 3 is a non-residue modulo 17. -/
theorem witness_ModsqrtPrime_search :
    ∃ s : State, s = unit 17 2 0 ∧ s.regNat 0 % s.mod.toNat ≠ 0 ∧ IsSquare (s.regNat 0 : ZMod s.mod.toNat) ∧
      ∃ z : Nat, 2 ≤ z ∧ z ≤ 2 ^ 24 ∧ ¬IsSquare (z : ZMod s.mod.toNat) := by
  refine ⟨_, rfl, by decide +kernel, ?_, 3, by decide, by decide, ?_⟩
  · have residue : ∀ s : State, s.mod.toNat = 17 → s.regNat 0 = 2 → IsSquare (s.regNat 0 : ZMod s.mod.toNat) := by
      intro s hp ha
      rw [ha, hp]; decide
    exact residue _ (by decide +kernel) (by decide +kernel)
  · have nonResidue : ∀ s : State, s.mod.toNat = 17 → ¬IsSquare ((3 : Nat) : ZMod s.mod.toNat) := by
      intro s hp
      rw [hp]; decide
    exact nonResidue _ (by decide +kernel)

/-- An exponent of 0. -/
theorem witness_ModexpWritesPower : (unit 977 5 0).regNat 1 = 0 := by decide +kernel

theorem witness_BadModulusExactlyWhenInvalid :
    Instr.wellFormed (.modexp 7 0 1) = true ∧ Instr.modexp 7 0 1 ≠ .nop ∧ State.reset.mod.toNat % 2 = 0 ∧
      (unit 1 0 0).mod.toNat < 3 ∧ (unit (2 ^ 2048 - 2) 0 0).mod.toNat % 2 = 0 ∧
      ¬((unit 3 0 0).mod.toNat % 2 = 0 ∨ (unit 3 0 0).mod.toNat < 3) := by decide +kernel

theorem witness_FieldOutsideFileIsIllegalOperand : Instr.wellFormed (.modsqrt 8 15) = false := by decide

/-- A next state of a command without an error, and a register that is not its destination. -/
theorem witness_CommandFrame :
    nextHas (exec (.modmul 2 0 1) (unit 977 489 2)) (fun t => !t.err) = true ∧ destination (.modmul 2 0 1) = some 2 ∧
      regSlot 2 ≠ 7 := by decide +kernel

/-- Two states that agree on what the command reads and on little else. -/
theorem witness_OutcomeDependsOnlyOnOperands :
    (unit 977 489 2).mod = ({ unit 977 489 2 with regs := (unit 977 489 2).regs.set 5 9, drop := true }).mod ∧
      (∀ f ∈ sources (.modmul 2 0 1), (unit 977 489 2).readReg f =
        ({ unit 977 489 2 with regs := (unit 977 489 2).regs.set 5 9, drop := true }).readReg f) ∧
      ∃ t₁ t₂, exec (.modmul 2 0 1) (unit 977 489 2) = .next t₁ ∧
        exec (.modmul 2 0 1) { unit 977 489 2 with regs := (unit 977 489 2).regs.set 5 9, drop := true } = .next t₂ :=
  ⟨rfl, by decide +kernel, _, _, rfl, rfl⟩

/-- A command in flight that fails. -/
theorem witness_FailedCommandIsPrecise :
    (inFlight 0 0 0 0x01000000).busy = true ∧ (inFlight 0 0 0 0x01000000).err = false ∧
      nextHas (completeInFlight (inFlight 0 0 0 0x01000000)) (fun t => t.err) = true := by decide +kernel

theorem witness_CmdWriteAcceptsOrRefuses :
    (inFlight 0 0 0 0).busy = true ∧ ({ State.reset with err := true, errCode := 3 }).err = true ∧
      ¬(State.reset.busy = true ∨ State.reset.err = true) := by decide +kernel

/-- The three cases of a `CMD` write: a command in flight, an error not acknowledged, and an idle unit. -/
theorem witness_CmdReadsLastAcceptedWord :
    (inFlight 0 0 0 0x01000000).busy = true ∧ ({ State.reset with err := true, errCode := 3 }).err = true ∧
      ¬((unit 977 0 0).busy = true ∨ (unit 977 0 0).err = true) := by decide +kernel

theorem witness_ErrorBlocksUntilAcknowledged :
    ({ State.reset with err := true, errCode := 3 }).busy = false ∧
      ({ State.reset with err := true, errCode := 3 }).err = true ∧ (0x00000004 : Word).getLsbD 2 = true := by decide

theorem witness_CtrlWriteSetsEnables :
    (0x00000000 : Word).getLsbD 31 = false ∧ (0x7FFFFFFF : Word).getLsbD 31 = false := by decide

theorem witness_InterruptOutput :
    (inFlight 977 489 2 0).env.resetApplied = true ∧ (0x00000003 : Word).getLsbD 31 = false := by decide +kernel

theorem witness_StepKeepsFlagInvariants :
    (inFlight 977 489 2 0x01201000).env.resetApplied = true ∧ (inFlight 977 489 2 0x01201000).FlagsInv ∧
      nextHas (step (inFlight 977 489 2 0x01201000)) (fun t => t.done) = true := by decide +kernel

/-- A run of two steps from reset: a host's `NOP`, and its completion. -/
theorem witness_ReachableStatesHaveFlagInvariants :
    nextHas (Sys2Proof.core.run 2
      { State.reset with env := { Env.quiet with schedule := [.bus (.write 0x010 0 0b1111), .engine] } })
      (fun t => t.done && t.env.resetApplied) = true := by decide +kernel

theorem witness_InFlightCommandIsUndisturbed :
    (inFlight 977 2 0 0x02100000).busy = true ∧
      ∀ tr ∈ [Transaction.read 0x200, .write 0x2FC 7 0b1111, .write 0x010 0 0b1111, .write 0x008 3 0b1111],
        tr.isSoftReset = false := by decide +kernel

theorem witness_ResultIndependentOfSchedule :
    ({ unitBefore [.bus (.read 0x00C), .bus (.write 0x100 5 0b1111), .engine] 977 2 0 with
        busy := true, lastCmd := 0x02100000 }).env.resetApplied = true ∧
      (∀ tr ∈ [Transaction.read 0x00C, .write 0x100 5 0b1111], tr.isSoftReset = false) ∧
      (unitBefore [.bus (.read 0x00C), .bus (.write 0x100 5 0b1111), .engine] 977 2 0).env.schedule =
        [Transaction.read 0x00C, .write 0x100 5 0b1111].map .bus ++ .engine :: [] := by decide +kernel

/-- The windows' first word and last. -/
theorem witness_windows :
    (unit 977 489 2).busy = false ∧ (inFlight 977 489 2 0).busy = true ∧ (0 ≤ 63 ∧ 63 ≤ 63) ∧
      (BigReg.r 7 ≠ BigReg.mod ∨ (0 : Nat) ≠ 0) ∧ (BigReg.mod ≠ BigReg.mod ∨ (63 : Nat) ≠ 0) := by decide +kernel

theorem witness_MisalignedAccessOnlySetsAccerr :
    ∀ off ∈ [(0x001 : Offset), 0x00E, 0xFFF], off.toNat % 4 ≠ 0 := by decide

theorem witness_PartialWriteOnlySetsAccerr : ∀ strb ∈ [(0b0000 : Strobe), 0b0011, 0b1110], strb ≠ 0b1111 := by decide

/-- Every reserved range at both ends, and the read-only registers. -/
theorem witness_ReservedAndReadOnlyOffsets :
    (∀ off ∈ [(0x014 : Offset), 0x01C, 0x0FC, 0xA00, 0xFFC], off.toNat % 4 = 0 ∧
      (off = 0x014 ∨ (0x01C ≤ off.toNat ∧ off.toNat ≤ 0x0FC) ∨ 0xA00 ≤ off.toNat)) ∧
      ∀ off ∈ [(0x000 : Offset), 0x004, 0x018], off.toNat % 4 = 0 ∧ (off = 0x000 ∨ off = 0x004 ∨ off = 0x018) := by
  decide

/-- The three reads that set `ACCERR`, and reads that do not. -/
theorem witness_ReadSideEffects :
    (0x003 : Offset).toNat % 4 ≠ 0 ∧ target 0x0FC = .reserved ∧
      ((inFlight 977 2 0 0).busy = true ∧ target 0x100 = .window .mod 0 ∧ target 0x9FC = .window (.r 7) 63) ∧
      (0x00C : Offset).toNat % 4 = 0 ∧ target 0x00C = .status := by decide +kernel

theorem witness_EveryTransactionCompletes :
    (unitBefore [.bus (.read 0x014)] 977 0 0).env.resetApplied = true ∧
      (unitBefore [.bus (.read 0x014)] 977 0 0).env.schedule = .bus (.read 0x014) :: [] := by decide +kernel

/-- A scripted host and the pins with a transaction before the first reset, and power about to be lost. -/
theorem witness_NothingRunsBeforeReset_hostAndPins :
    (powerCycle (unitWithHost [.wait] [.host 0])).env.resetApplied = false ∧
      (powerCycle (unitWithHost [.wait] [.host 0])).env.schedule = .host 0 :: [] ∧
      (powerCycle (unitWithHost [.wait] [.host 0])).env.hosts[0]? = some (hostOf [.wait]) ∧
      (hostOf [.wait]).move = .issue (.read 0x00C) ∧ (Transaction.read 0x00C).isSoftReset = false ∧
      ((powerCycle (unitBefore [.edge ⟨true, true, false, 0, 0, 0⟩ true] 0 0 0)).setRequest
        (some ⟨true, true, false, 0, 0, 0⟩)).env.request = some ⟨true, true, false, 0, 0, 0⟩ ∧
      ((powerCycle (unitBefore [.edge ⟨true, true, false, 0, 0, 0⟩ true] 0 0 0)).setRequest
        (some ⟨true, true, false, 0, 0, 0⟩)).env.schedule = .edge ⟨true, true, false, 0, 0, 0⟩ true :: [] ∧
      Pins.holds ⟨true, true, false, 0, 0, 0⟩ ⟨true, true, false, 0, 0, 0⟩ = true ∧
      (Pins.transaction ⟨true, true, false, 0, 0, 0⟩).isSoftReset = false ∧
      (unitBefore [.powerCycle] 977 2 0).env.schedule = .powerCycle :: [] := by decide +kernel

/-- Each of the three resets, with a command in flight. -/
theorem witness_EveryResetGivesResetState :
    ({ unitBefore [.hardReset] 977 2 0 with busy := true }).env.request = none ∧
      (unitBefore [.hardReset] 977 2 0).env.schedule = .hardReset :: [] ∧
      (unitBefore [.edge ⟨false, false, false, 0, 0, 0⟩ false] 977 2 0).env.schedule =
        .edge ⟨false, false, false, 0, 0, 0⟩ false :: [] ∧
      (unitBefore [.bus (.write 0x008 0x80000003 0b1111)] 977 2 0).env.schedule =
        .bus (.write 0x008 0x80000003 0b1111) :: [] ∧ (0x80000003 : Word).getLsbD 31 = true := by decide +kernel

/-- Power has returned and no reset has been applied; the engine or a transaction comes next. -/
theorem witness_NothingRunsBeforeReset :
    (powerCycle (unitBefore [.bus (.read 0)] 977 2 0)).env.resetApplied = false ∧
      (powerCycle (unitBefore [.engine] 977 2 0)).EngineNext [] ∧ (powerCycle (unitBefore [] 977 2 0)).EngineNext [] ∧
      (powerCycle (unitBefore [.bus (.read 0)] 977 2 0)).env.schedule = .bus (.read 0) :: [] ∧
      (Transaction.read 0).isSoftReset = false := by decide +kernel

/-- A request at the edge itself, and one held since an earlier edge. -/
theorem witness_TransactionDuringResetIsRefused :
    (unitBefore [.edge ⟨false, true, false, 0, 0, 0⟩ false] 977 2 0).env.schedule =
        .edge ⟨false, true, false, 0, 0, 0⟩ false :: [] ∧
      ((unitBefore [.edge ⟨false, false, false, 0, 0, 0⟩ false] 977 2 0).setRequest
        (some ⟨true, true, false, 0, 0, 0⟩)).env.request.isSome = true ∧
      ((unitBefore [.edge ⟨false, false, false, 0, 0, 0⟩ false] 977 2 0).setRequest
        (some ⟨true, true, false, 0, 0, 0⟩)).env.schedule = .edge ⟨false, false, false, 0, 0, 0⟩ false :: [] := by
  decide +kernel

theorem witness_PinRequestPerformsTransaction :
    (unitBefore [.edge ⟨true, true, true, 0x1FC, 977, 0b1111⟩ false, .edge ⟨true, true, true, 0x1FC, 977, 0b1111⟩ true]
        0 0 0).env.resetApplied = true ∧
      (unitBefore [.edge ⟨true, true, true, 0x1FC, 977, 0b1111⟩ false,
        .edge ⟨true, true, true, 0x1FC, 977, 0b1111⟩ true] 0 0 0).env.request = none ∧
      (unitBefore [.edge ⟨true, true, true, 0x1FC, 977, 0b1111⟩ false,
        .edge ⟨true, true, true, 0x1FC, 977, 0b1111⟩ true] 0 0 0).env.schedule =
        .edge ⟨true, true, true, 0x1FC, 977, 0b1111⟩ false ::
          .edge ⟨true, true, true, 0x1FC, 977, 0b1111⟩ true :: [] := by decide +kernel

theorem witness_LaunchPremiseKept : (unit 977 489 2).Launch ∧ (0x00000003 : Word).getLsbD 31 = false := by decide +kernel

/-- A host about to load the largest natural and the least. -/
theorem witness_LoadStatementLoadsRegister :
    ∀ n ∈ [0, 2 ^ 2048 - 1],
      (unitWithHost [.ldbig .mod (.num n)] (List.replicate 64 (.host 0))).env.resetApplied = true ∧
        (unitWithHost [.ldbig .mod (.num n)] (List.replicate 64 (.host 0))).busy = false ∧
        (unitWithHost [.ldbig .mod (.num n)] (List.replicate 64 (.host 0))).env.hosts =
          [hostOf [.ldbig .mod (.num n)]] ∧
        (unitWithHost [.ldbig .mod (.num n)] (List.replicate 64 (.host 0))).env.schedule =
          List.replicate 64 (.host 0) ++ [] ∧
        (hostOf [.ldbig .mod (.num n)]).halted = false ∧ (hostOf [.ldbig .mod (.num n)]).sub = 0 ∧
        (hostOf [.ldbig .mod (.num n)]).script[(hostOf [.ldbig .mod (.num n)]).hpc]? = some (.ldbig .mod (.num n)) ∧
        (HostExpr.num n).eval (hostOf [.ldbig .mod (.num n)]).vars = some n ∧ n < 2 ^ 2048 := by decide +kernel

theorem witness_ReadStatementReadsRegister :
    (unitWithHost [.rdbig (.r 7) 1] (List.replicate 64 (.host 0))).env.resetApplied = true ∧
      (unitWithHost [.rdbig (.r 7) 1] (List.replicate 64 (.host 0))).busy = false ∧
      (unitWithHost [.rdbig (.r 7) 1] (List.replicate 64 (.host 0))).env.hosts = [hostOf [.rdbig (.r 7) 1]] ∧
      (unitWithHost [.rdbig (.r 7) 1] (List.replicate 64 (.host 0))).env.schedule =
        List.replicate 64 (.host 0) ++ [] ∧
      (hostOf [.rdbig (.r 7) 1]).halted = false ∧ (hostOf [.rdbig (.r 7) 1]).sub = 0 ∧
      (hostOf [.rdbig (.r 7) 1]).acc = 0 ∧
      (hostOf [.rdbig (.r 7) 1]).script[(hostOf [.rdbig (.r 7) 1]).hpc]? = some (.rdbig (.r 7) 1) := by decide +kernel

theorem witness_CommandStatementIssuesEncoding :
    (unitWithHost [.cmd (.modmul 2 0 1)] [.host 0]).env.resetApplied = true ∧
      (unitWithHost [.cmd (.modmul 2 0 1)] [.host 0]).busy = false ∧
      (unitWithHost [.cmd (.modmul 2 0 1)] [.host 0]).err = false ∧
      (unitWithHost [.cmd (.modmul 2 0 1)] [.host 0]).env.hosts = [hostOf [.cmd (.modmul 2 0 1)]] ∧
      (unitWithHost [.cmd (.modmul 2 0 1)] [.host 0]).env.schedule = .host 0 :: [] ∧
      (hostOf [.cmd (.modmul 2 0 1)]).halted = false ∧ (hostOf [.cmd (.modmul 2 0 1)]).sub = 0 ∧
      (hostOf [.cmd (.modmul 2 0 1)]).script[(hostOf [.cmd (.modmul 2 0 1)]).hpc]? = some (.cmd (.modmul 2 0 1)) ∧
      Instr.wellFormed (.modmul 2 0 1) = true := by decide +kernel

/-- Polling an idle unit, and a busy one. -/
theorem witness_WaitStatementPollsBusy :
    (unitWithHost [.wait] [.host 0]).env.resetApplied = true ∧
      (unitWithHost [.wait] [.host 0]).env.hosts = [hostOf [.wait]] ∧
      (unitWithHost [.wait] [.host 0]).env.schedule = .host 0 :: [] ∧ (hostOf [.wait]).halted = false ∧
      (hostOf [.wait]).sub = 0 ∧ (hostOf [.wait]).script[(hostOf [.wait]).hpc]? = some .wait ∧
      (unitWithHost [.wait] [.host 0]).busy = false ∧
      ({ unitWithHost [.wait] [.host 0] with busy := true }).busy = true := by decide +kernel

/-- One host for each clause: `HALT`, `GOTO`, both branches of `IF`, and an assignment. -/
theorem witness_HostOwnStatementsLeaveUnitAlone :
    (∀ st ∈ [HostStmt.halt, .goto 3, .ifGoto (.eq (.num 1) (.num 1)) 3, .ifGoto (.lt (.num 1) (.num 1)) 3,
        .assign 1 (.sub (.num 9) (.num 9))],
      (unitWithHost [st] [.host 0]).env.hosts = [hostOf [st]] ∧
        (unitWithHost [st] [.host 0]).env.schedule = .host 0 :: [] ∧ (hostOf [st]).halted = false ∧
        (hostOf [st]).script[(hostOf [st]).hpc]? = some st) ∧
      (HostCond.eq (.num 1) (.num 1)).eval [] = some true ∧ (HostCond.lt (.num 1) (.num 1)).eval [] = some false ∧
      (HostExpr.sub (.num 9) (.num 9)).eval [] = some 0 := by decide +kernel

end Sys2Proof.Tests
end

section
/-! What a command's completion writes to its destination, and that its outcome is a function of `MOD` and its sources. -/

namespace Sys2Proof.Machine

/-! ## The outcome of a command -/

/-- The state after a command is the report of its outcome (R68). -/
theorem eq_complete_of_exec_next {i : Instr} {s t : State} (h : exec i s = .next t) :
    t = s.complete ((destination i).getD 0) (execResult i s) := by
  rw [exec_eq_complete] at h
  exact (Host.Outcome.next.inj h).symm

/-- A command that names a destination ends with a canonical residue or with an error: it never ends without a result
(R4, R67). -/
theorem execResult_of_destination {i : Instr} {d : RegField} (hd : destination i = some d) (s : State) :
    (∃ v, v < s.mod.toNat ∧ execResult i s = .okValue v) ∨ ∃ e, execResult i s = .fail e := by
  obtain ⟨rfl, -⟩ | ⟨-, operand⟩ | ⟨-, -, -, modulus⟩ | ⟨-, -, -, -, own⟩ := execResult_cases i s
  · cases hd
  · exact .inr ⟨_, operand⟩
  · exact .inr ⟨_, modulus⟩
  · obtain value | error | error | error := own
    · exact .inl value
    all_goals exact .inr ⟨_, error⟩

/-- The outcome of a command is a function of `MOD` and of the registers it names as sources (R7, R30). -/
theorem execResult_congr {i : Instr} {s₁ s₂ : State} (hmod : s₁.mod = s₂.mod)
    (hsrc : ∀ f ∈ sources i, s₁.readReg f = s₂.readReg f) : execResult i s₁ = execResult i s₂ := by
  have regs : ∀ f ∈ sources i, s₁.regNat f = s₂.regNat f := fun f hf => congrArg BitVec.toNat (hsrc f hf)
  cases i with
  | nop => rfl
  | modmul rd rs1 rs2 => simp [execResult, hmod, regs rs1 (by simp [sources]), regs rs2 (by simp [sources])]
  | modinv rd rs1 => simp [execResult, hmod, regs rs1 (by simp [sources])]
  | modsqrt rd rs1 => simp [execResult, hmod, regs rs1 (by simp [sources])]
  | modexp rd rs1 rs2 => simp [execResult, hmod, regs rs1 (by simp [sources]), regs rs2 (by simp [sources])]

/-! ## The report of an outcome -/

/-- The error code after a completion is set by the outcome alone: no earlier code survives (R68, R91). -/
theorem complete_errCode_congr (s₁ s₂ : State) (rd : RegField) (r : ExecResult) :
    (s₁.complete rd r).errCode = (s₂.complete rd r).errCode := by
  cases r <;> rfl

theorem complete_fail_err (s : State) (rd : RegField) (e : CmdError) : (s.complete rd (.fail e)).err = true := rfl

theorem complete_fail_errCode (s : State) (rd : RegField) (e : CmdError) :
    (s.complete rd (.fail e)).errCode = e.code := rfl

theorem complete_okValue_readReg (s : State) (rd : RegField) (v : Nat) :
    (s.complete rd (.okValue v)).readReg rd = BitVec.ofNat 2048 v :=
  (State.readReg_writeReg s rd rd _).trans (if_pos rfl)

theorem CmdError.code_ne_zero (e : CmdError) : e.code ≠ 0 := by cases e <;> decide

/-! ## The two statements -/

/-- Settles O19: a command that has a destination and raises no error has written the value of its outcome, which is a
canonical residue. -/
theorem writtenValueIsBelowModulus : Obligations.WrittenValueIsBelowModulus := by
  intro i s t d hexec hd noErr
  have ht := eq_complete_of_exec_next hexec
  rw [hd, Option.getD_some] at ht
  obtain ⟨v, below, value⟩ | ⟨e, error⟩ := execResult_of_destination hd s
  · rw [ht, value, complete_okValue, regNat_succeeded d below]
    exact below
  · rw [ht, error, complete_fail_err] at noErr
    cases noErr

/-- Settles O20: both states give the command the same outcome, and the report of an outcome fixes the error code, `BUSY`
and the destination. -/
theorem outcomeDependsOnlyOnOperands : Obligations.OutcomeDependsOnlyOnOperands := by
  intro i s₁ s₂ t₁ t₂ hmod hsrc h₁ h₂
  have ht₁ := eq_complete_of_exec_next h₁
  have ht₂ := eq_complete_of_exec_next h₂
  rw [execResult_congr hmod hsrc] at ht₁
  subst ht₁ ht₂
  refine ⟨complete_errCode_congr _ _ _ _, by simp only [State.complete_busy], fun noCode d hd => ?_⟩
  rw [hd, Option.getD_some] at noCode ⊢
  obtain ⟨v, -, value⟩ | ⟨e, error⟩ := execResult_of_destination hd s₂
  · rw [value, complete_okValue_readReg, complete_okValue_readReg]
  · rw [error, complete_fail_errCode] at noCode
    exact absurd noCode e.code_ne_zero

end Sys2Proof.Machine
end

section
/-! SUPPORT. What leaves the flags of R25 as they are, and what a transaction and a completion do to them. -/

namespace Sys2Proof.Machine

/-! ## The flag invariants under each operation (R25) -/

/-- The invariants of R25 speak of `BUSY`, `DONE`, `ERR` and `ERRCODE` only. -/
theorem State.FlagsWf.of_flags_eq {s t : State} (wf : s.FlagsWf) (busy : t.busy = s.busy) (done : t.done = s.done)
    (err : t.err = s.err) (code : t.errCode = s.errCode) : t.FlagsWf := by
  rw [State.FlagsWf, busy, done, err, code]
  exact wf

theorem flagsWf_unitReset (s : State) : s.unitReset.FlagsWf := by
  simp [State.FlagsWf]

/-- A write to `STATUS` clears flags, and clears `ERRCODE` exactly when it clears `ERR` (R24). -/
theorem flagsWf_statusWrite {s : State} (wf : s.FlagsWf) (d : Word) : (s.statusWrite d).FlagsWf := by
  obtain ⟨⟨busyDone, busyErr, doneErr⟩, code, range⟩ := wf
  simp only [State.FlagsWf, State.statusWrite_busy, State.statusWrite_done, State.statusWrite_err,
    State.statusWrite_errCode]
  cases d.getLsbD 2 <;> grind

/-- A write to `CMD` is accepted only while `BUSY` and `ERR` are 0, and clears `DONE` when it sets `BUSY` (R64). -/
theorem flagsWf_cmdWrite {s : State} (wf : s.FlagsWf) (d : Word) : (s.cmdWrite d).FlagsWf := by
  obtain ⟨-, refused⟩ | ⟨idle, noErr, accepted⟩ := cmdWrite_cases s d
  · rw [refused]; exact wf
  · rw [accepted]
    obtain ⟨-, code, range⟩ := wf
    exact ⟨by simp [noErr], code, range⟩

theorem flagsWf_memRead {s : State} (wf : s.FlagsWf) (off : Offset) : (s.memRead off).2.FlagsWf := by
  obtain ⟨blocked, -⟩ | ⟨unchanged, -⟩ := memRead_cases s off
  · rw [blocked]; exact wf
  · rw [unchanged]; exact wf

theorem flagsWf_memWrite {s : State} (wf : s.FlagsWf) (off : Offset) (d : Word) (strb : Strobe) :
    (s.memWrite off d strb).FlagsWf := by
  obtain h | ⟨-, -, h⟩ | ⟨-, -, h⟩ | ⟨-, -, h⟩ | ⟨-, x, j, -, h⟩ := memWrite_cases s off d strb <;> rw [h]
  · exact wf
  · obtain ⟨-, reset⟩ | ⟨-, enables⟩ := ctrlWrite_cases s d
    · rw [reset]; exact flagsWf_unitReset s
    · rw [enables]; exact wf
  · exact flagsWf_statusWrite wf d
  · exact flagsWf_cmdWrite wf d
  · exact wf.of_flags_eq (by simp) (by simp) (by simp) (by simp)

theorem flagsWf_transact {s : State} (wf : s.FlagsWf) (tr : Transaction) : (s.transact tr).FlagsWf := by
  cases tr with
  | read off => exact flagsWf_memRead wf off
  | write off d strb => exact flagsWf_memWrite wf off d strb

/-- While `BUSY` is 1 both `DONE` and `ERR` are 0, so a completion, which ends `BUSY`, leaves exactly one of them 1 (R68). -/
theorem flagsWf_complete {s : State} (wf : s.FlagsWf) (busy : s.busy = true) (rd : RegField) (r : ExecResult) :
    (s.complete rd r).FlagsWf := by
  obtain ⟨⟨busyDone, busyErr, -⟩, -, -⟩ := wf
  have noDone : s.done = false := by simpa [busy] using busyDone
  have noErr : s.err = false := by simpa [busy] using busyErr
  cases r with
  | okValue v => simp [State.complete, State.FlagsWf, noErr]
  | ok => simp [State.complete, State.FlagsWf, noErr]
  | fail e => exact ⟨by simp [State.complete, noDone], iff_of_true e.code_ne_zero rfl, e.code_range.2⟩

/-! ## Transactions that are performed (R35, R47) -/

/-- A soft reset is the reset of R109, answered on the port (R22). -/
theorem transact_of_softReset {tr : Transaction} (soft : tr.isSoftReset = true) (s : State) :
    s.transact tr = s.unitReset.respond .writeDone := by
  cases tr with
  | read off => cases soft
  | write off d strb =>
    simp only [Transaction.isSoftReset, Bool.and_eq_true, beq_iff_eq] at soft
    obtain ⟨⟨rfl, rfl⟩, bit⟩ := soft
    rw [State.transact, memWrite_ctrl, State.ctrlWrite, if_pos bit]

theorem performTransaction_next {tr : Transaction} {s t : State} (h : performTransaction tr s = .next t) :
    t = s.transact tr ∧ (s.env.resetApplied = true ∨ tr.isSoftReset = true) := by
  rw [performTransaction] at h
  split at h
  · next allowed => cases h; exact ⟨rfl, by simpa using allowed⟩
  · cases h

/-- A transaction that is performed leaves a state with the flag invariants: it starts from one, or is a reset. -/
theorem flagsWf_of_performTransaction {tr : Transaction} {s t : State} (inv : s.FlagsInv)
    (h : performTransaction tr s = .next t) : t.FlagsWf := by
  obtain ⟨rfl, applied | soft⟩ := performTransaction_next h
  · exact flagsWf_transact (inv applied) tr
  · rw [transact_of_softReset soft]; exact flagsWf_unitReset s

/-! ## The flag invariants along a run -/

theorem flagsInv_of_engineTurn {s t : State} (inv : s.FlagsInv) (h : engineTurn s = .next t) : t.FlagsInv := by
  obtain ⟨-, e⟩ | ⟨-, -, e⟩ | ⟨applied, busy, e⟩ := engineTurn_cases s <;> rw [e] at h
  · cases h
  · cases h; exact inv
  · obtain ⟨rd, r, completed⟩ := completeInFlight_eq s
    rw [completed] at h
    cases h
    exact fun _ => flagsWf_complete (inv applied) busy rd r

theorem flagsInv_of_hostTurn {k : Nat} {s t : State} (inv : s.FlagsInv) (h : hostTurn k s = .next t) : t.FlagsInv := by
  obtain rfl | ⟨g, rfl⟩ | ⟨tr, u, g, performed, rfl⟩ := hostTurn_cases h
  · exact inv
  · exact inv
  · have wf : u.FlagsWf := flagsWf_of_performTransaction inv performed
    exact fun _ => wf

theorem flagsInv_of_hardReset {s t : State} (h : hardReset s = .next t) : t.FlagsInv := by
  obtain ⟨-, e⟩ | ⟨-, e⟩ := hardReset_cases s <;> rw [e] at h <;> cases h
  exact fun _ => flagsWf_unitReset s

theorem flagsInv_of_clockEdge {p : Pins} {ack : Bool} {s t : State} (inv : s.FlagsInv)
    (h : clockEdge p ack s = .next t) : t.FlagsInv := by
  obtain ⟨-, rfl⟩ | ⟨-, ⟨r, rfl⟩ | rfl | performed⟩ := clockEdge_cases h
  · exact fun _ => flagsWf_unitReset s
  · exact inv
  · exact inv
  · exact fun _ => flagsWf_of_performTransaction (s := s.setRequest none) inv performed

/-- Every event keeps the flag invariants of specified states (R25); a loss of power leaves an unspecified one (R35). -/
theorem flagsInv_of_takeEvent {e : Event} {s t : State} (inv : s.FlagsInv) (h : takeEvent e s = .next t) :
    t.FlagsInv := by
  cases e with
  | bus tr => exact fun _ => flagsWf_of_performTransaction inv h
  | host k => exact flagsInv_of_hostTurn inv h
  | engine => exact flagsInv_of_engineTurn inv h
  | edge p ack => exact flagsInv_of_clockEdge inv h
  | hardReset => exact flagsInv_of_hardReset h
  | powerCycle =>
    cases h
    intro applied
    simp at applied

/-- Settles O29, by the event the step takes. Taking it off the schedule changes no flag. -/
theorem stepKeepsFlagInvariants : Obligations.StepKeepsFlagInvariants := by
  intro s t inv h
  have begun (rest : List Event) : (s.begin rest).FlagsInv := inv
  cases schedule : s.env.schedule with
  | nil => exact flagsInv_of_engineTurn (begun []) (step_of_empty schedule ▸ h)
  | cons e rest => exact flagsInv_of_takeEvent (begun rest) (step_of_schedule schedule ▸ h)

/-- Settles O30. -/
theorem resetHasFlagInvariants : Obligations.ResetHasFlagInvariants :=
  ⟨rfl, flagsWf_unitReset State.reset⟩

/-- Settles O31: O30 is the base case, for any environment, and O29 the step of the induction over the run. -/
theorem reachableStatesHaveFlagInvariants : Obligations.ReachableStatesHaveFlagInvariants := by
  intro e n t h
  have start : State.FlagsInv { State.reset with env := e } := fun _ => resetHasFlagInvariants.2
  exact run_keeps stepKeepsFlagInvariants start h

end Sys2Proof.Machine
end

section
/-! SUPPORT. The command in flight: what its completion writes, what transactions leave of it, and when it completes. -/

namespace Sys2Proof.Machine

/-! ## What a completion writes -/

/-- Only a command without a destination ends without a result or an error (R67, R71). -/
theorem execResult_of_no_destination {i : Instr} (h : destination i = none) (s : State) : execResult i s = .ok := by
  cases i with
  | nop => rfl
  | modmul | modinv | modsqrt | modexp => cases h

/-- A completion writes no register but the destination of the command (R14, R68). -/
theorem complete_regs_of_ne (s : State) {rd : RegField} {k : Fin 8} (ne : regSlot rd ≠ k) (r : ExecResult) :
    (s.complete rd r).regs[k] = s.regs[k] := by
  cases r with
  | okValue v => exact Vector.getElem_set_ne (regSlot rd).isLt k.isLt fun same => ne (Fin.ext same)
  | ok => rfl
  | fail e => rfl

/-- The registers after a completion are set by the registers before it and the outcome (R68). -/
theorem complete_regs_congr {s₁ s₂ : State} (regs : s₁.regs = s₂.regs) (rd : RegField) (r : ExecResult) :
    (s₁.complete rd r).regs = (s₂.complete rd r).regs := by
  cases r with
  | okValue v => exact congrArg (·.set (regSlot rd) (BitVec.ofNat 2048 v)) regs
  | ok => exact regs
  | fail e => exact regs

/-- Settles O18: the state after a command is the report of its outcome, and a report touches the destination and the
flags of a command's end. -/
theorem commandFrame : Obligations.CommandFrame := by
  intro i s t h
  rw [eq_complete_of_exec_next h]
  refine ⟨by simp, by simp, by simp, by simp, by simp, by simp, by simp, fun k other => ?_⟩
  cases hd : destination i with
  | none => rw [execResult_of_no_destination hd]; rfl
  | some d => exact complete_regs_of_ne s (other d hd) _

/-! ## The engine's step -/

theorem completeInFlight_of_cmd {s : State} {i : Instr} (h : decode s.lastCmd = .cmd i) :
    completeInFlight s = exec i s := by
  rw [completeInFlight, h]

/-- When the engine moves next, the step completes the command in flight (R68). -/
theorem step_of_inFlight {s : State} {rest : List Event} (applied : s.env.resetApplied = true) (busy : s.busy = true)
    (next : s.EngineNext rest) : step s = completeInFlight (s.begin rest) := by
  rw [step_of_engineNext next]
  simp [engineTurn, applied, busy]

/-- Settles O8. -/
theorem stepRunsDecodedCommand : Obligations.StepRunsDecodedCommand := by
  intro s i rest applied busy next hdecode
  rw [step_of_inFlight applied busy next]
  exact completeInFlight_of_cmd hdecode

/-- The command in flight ends with the same outcome, for the same destination, in two states with the same `LASTCMD`,
`MOD` and registers (R7, R31). -/
theorem completeInFlight_congr {s₁ s₂ : State} (lastCmd : s₁.lastCmd = s₂.lastCmd) (regs : s₁.regs = s₂.regs)
    (mod : s₁.mod = s₂.mod) :
    ∃ rd r, completeInFlight s₁ = .next (s₁.complete rd r) ∧ completeInFlight s₂ = .next (s₂.complete rd r) := by
  have sources (i : Instr) : ∀ f ∈ sources i, s₁.readReg f = s₂.readReg f := fun f _ => by
    rw [State.readReg, regs, State.readReg]
  rw [completeInFlight, completeInFlight, lastCmd]
  cases decode s₂.lastCmd with
  | cmd i =>
    refine ⟨_, _, exec_eq_complete i s₁, ?_⟩
    rw [execResult_congr mod (sources i)]
    exact exec_eq_complete i s₂
  | illegalOpcode => exact ⟨0, .fail .illegalOpcode, rfl, rfl⟩
  | illegalOperand => exact ⟨0, .fail .illegalOperand, rfl, rfl⟩

/-! ## Transactions while a command is in flight -/

/-- The command in flight, its operands and `MOD` are the same in `t` as in `s`, and so is the environment but for the
port's answer (R31). -/
structure State.SameInFlight (s t : State) : Prop where
  busy : t.busy = s.busy
  lastCmd : t.lastCmd = s.lastCmd
  regs : t.regs = s.regs
  mod : t.mod = s.mod
  applied : t.env.resetApplied = s.env.resetApplied
  schedule : t.env.schedule = s.env.schedule

theorem State.SameInFlight.respond {s t : State} (same : s.SameInFlight t) (r : Response) :
    s.SameInFlight (t.respond r) :=
  ⟨same.busy, same.lastCmd, same.regs, same.mod, same.applied, same.schedule⟩

theorem sameInFlight_accessError (s : State) : s.SameInFlight s.accessError := ⟨rfl, rfl, rfl, rfl, rfl, rfl⟩

theorem sameInFlight_memRead (s : State) (off : Offset) : s.SameInFlight (s.memRead off).2 := by
  obtain ⟨blocked, -⟩ | ⟨unchanged, -⟩ := memRead_cases s off
  · rw [blocked]; exact sameInFlight_accessError s
  · rw [unchanged]; exact ⟨rfl, rfl, rfl, rfl, rfl, rfl⟩

/-- While `BUSY` is 1 windows are blocked and commands refused, so a write reaches flags and enables only (R45, R65). -/
theorem sameInFlight_memWrite {s : State} (busy : s.busy = true) {off : Offset} {d : Word} {strb : Strobe}
    (hard : (Transaction.write off d strb).isSoftReset = false) : s.SameInFlight (s.memWrite off d strb) := by
  obtain h | ⟨rfl, rfl, h⟩ | ⟨-, -, h⟩ | ⟨-, -, h⟩ | ⟨idle, -⟩ := memWrite_cases s off d strb
  · rw [h]; exact sameInFlight_accessError s
  · have noReset : d.getLsbD 31 = false := by simpa [Transaction.isSoftReset] using hard
    obtain ⟨reset, -⟩ | ⟨-, enables⟩ := ctrlWrite_cases s d
    · rw [noReset] at reset; cases reset
    · rw [h, enables]; exact ⟨rfl, rfl, rfl, rfl, rfl, rfl⟩
  · rw [h]; exact ⟨rfl, rfl, rfl, rfl, rfl, rfl⟩
  · obtain ⟨-, refused⟩ | ⟨idle, -, -⟩ := cmdWrite_cases s d
    · rw [h, refused]; exact ⟨rfl, rfl, rfl, rfl, rfl, rfl⟩
    · rw [busy] at idle; cases idle
  · rw [busy] at idle; cases idle

theorem sameInFlight_transact {s : State} (busy : s.busy = true) {tr : Transaction} (hard : tr.isSoftReset = false) :
    s.SameInFlight (s.transact tr) := by
  cases tr with
  | read off => exact (sameInFlight_memRead s off).respond _
  | write off d strb => exact (sameInFlight_memWrite busy hard).respond _

/-- Settles O32. -/
theorem inFlightCommandIsUndisturbed : Obligations.InFlightCommandIsUndisturbed := by
  intro s tr busy hard
  have same := sameInFlight_transact busy hard
  exact ⟨same.busy.trans busy, same.lastCmd, same.regs, same.mod⟩

/-! ## Transactions before the completion -/

/-- After any transactions but a soft reset, one a step, the command is in flight as before them, and the run goes on with
the events behind them (R48, R51). -/
theorem run_transactions_sameInFlight (n : Nat) (rest : List Event) {trs : List Transaction} {s : State}
    (applied : s.env.resetApplied = true) (busy : s.busy = true) (hard : ∀ tr ∈ trs, tr.isSoftReset = false)
    (schedule : s.env.schedule = trs.map .bus ++ rest) :
    ∃ v : State, core.run (trs.length + n) s = core.run n v ∧ (s.begin rest).SameInFlight v := by
  induction trs generalizing s with
  | nil => exact ⟨s, by simp, rfl, rfl, rfl, rfl, rfl, schedule⟩
  | cons tr trs ih =>
    have taken : step s = .next ((s.begin (trs.map .bus ++ rest)).transact tr) := by
      rw [step_of_schedule schedule]
      exact performTransaction_applied (s := s.begin _) applied tr
    have same := sameInFlight_transact (s := s.begin (trs.map .bus ++ rest)) busy (hard tr (by simp))
    obtain ⟨v, run, kept⟩ := ih (same.applied.trans applied) (same.busy.trans busy)
      (fun tr' mem => hard tr' (by simp [mem])) same.schedule
    refine ⟨v, ?_, kept.busy.trans same.busy, kept.lastCmd.trans same.lastCmd, kept.regs.trans same.regs,
      kept.mod.trans same.mod, kept.applied.trans same.applied, kept.schedule⟩
    rw [List.length_cons, Nat.add_right_comm, run_succ_of_next taken, run]

/-- Settles O33: the transactions leave the command and its operands as they were, and the outcome depends on nothing
else. -/
theorem resultIndependentOfSchedule : Obligations.ResultIndependentOfSchedule := by
  intro s trs rest applied busy hard schedule
  obtain ⟨v, run, same⟩ := run_transactions_sameInFlight 1 (.engine :: rest) applied busy hard schedule
  have last : step v = completeInFlight (v.begin rest) :=
    step_of_inFlight (same.applied.trans applied) (same.busy.trans busy) (.inl same.schedule)
  obtain ⟨rd, r, late, atOnce⟩ :=
    completeInFlight_congr (s₁ := v.begin rest) (s₂ := s) same.lastCmd same.regs same.mod
  have sameRegs : (v.begin rest).regs = s.regs := same.regs
  refine ⟨(v.begin rest).complete rd r, s.complete rd r, ?_, atOnce, by simp, complete_regs_congr sameRegs rd r, ?_,
    complete_errCode_congr _ _ rd r, ?_⟩
  · rw [run, run_succ_of_next (last.trans late), run_zero]
  · simpa using same.mod
  · simpa using same.lastCmd

end Sys2Proof.Machine
end

section
/-! SUPPORT. The control registers: each bit of `STATUS` and `CTRL` as it is read, what a transaction with `STATUS`, `CTRL` or
`CMD` does, and the offsets at which nothing can be written. -/

namespace Sys2Proof.Machine

/-! ## The words of `STATUS` and `CTRL`, bit by bit -/

/-- The flags of `STATUS` stand at bits 0 to 6, and bit 7 is reserved (R23). -/
theorem statusWord_flags (s : State) :
    s.statusWord.getLsbD 0 = s.busy ∧ s.statusWord.getLsbD 1 = s.done ∧ s.statusWord.getLsbD 2 = s.err ∧
      s.statusWord.getLsbD 3 = s.drop ∧ s.statusWord.getLsbD 4 = s.accErr ∧ s.statusWord.getLsbD 5 = s.irq ∧
      s.statusWord.getLsbD 6 = s.modOk ∧ s.statusWord.getLsbD 7 = false := by
  simp only [State.statusWord, BitVec.getLsbD_append]
  simp

/-- `ERRCODE` stands at bits 11:8 of `STATUS` (R23). -/
theorem statusWord_errCode (s : State) : s.statusWord.extractLsb' 8 4 = s.errCode := by
  ext k hk
  simp only [BitVec.getElem_extractLsb', State.statusWord, BitVec.getLsbD_append]
  simp [hk]

/-- Bits 31:12 of `STATUS` are reserved (R23). -/
theorem statusWord_reserved (s : State) : s.statusWord.extractLsb' 12 20 = 0 := by
  ext k hk
  simp only [BitVec.getElem_extractLsb', State.statusWord, BitVec.getLsbD_append]
  simp

/-- `CTRL` holds the two enables in its low bits and 0 elsewhere (R21). -/
theorem ctrlWord_of_enables {s : State} {d : Word} (ieDone : s.ieDone = d.getLsbD 0) (ieErr : s.ieErr = d.getLsbD 1) :
    s.ctrlWord = d &&& 3 := by
  apply BitVec.eq_of_getLsbD_eq
  intro k hk
  simp only [State.ctrlWord, ieDone, ieErr, BitVec.getLsbD_append, BitVec.getLsbD_and]
  obtain rfl | rfl | big : k = 0 ∨ k = 1 ∨ 2 ≤ k := by omega
  · simp
  · simp
  · have high : (3#32).getLsbD k = false :=
      Nat.testBit_lt_two_pow (lt_of_lt_of_le (b := 2 ^ 2) (by decide) (Nat.pow_le_pow_right (by decide) big))
    simp [high, show ¬k < 1 by omega, show ¬k - 1 < 1 by omega]

/-- Settles O27. -/
theorem interruptLevel : Obligations.InterruptLevel := by
  intro s
  obtain ⟨-, -, -, -, -, irqBit, -⟩ := statusWord_flags s
  exact ⟨rfl, irqBit⟩

/-- Settles O28. -/
theorem statusWordLayout : Obligations.StatusWordLayout := by
  intro s
  obtain ⟨busy, done, err, drop, accErr, irq, modOk, reserved⟩ := statusWord_flags s
  exact ⟨s.statusWord, memRead_status s, busy, done, err, drop, accErr, irq, modOk ▸ modulusValid_iff s.mod, reserved,
    statusWord_errCode s, statusWord_reserved s⟩

/-! ## Transactions with the control registers -/

theorem transact_ctrl {d : Word} (noReset : d.getLsbD 31 = false) (s : State) :
    s.transact (.write 0x008 d 0b1111) =
      ({ s with ieDone := d.getLsbD 0, ieErr := d.getLsbD 1 }).respond .writeDone := by
  obtain ⟨reset, -⟩ | ⟨-, enables⟩ := ctrlWrite_cases s d
  · rw [noReset] at reset; cases reset
  · rw [State.transact, memWrite_ctrl, enables]

/-- A flag that a 1 clears (R24). -/
theorem and_not_eq_ite (flag clear : Bool) : (flag && !clear) = if clear then false else flag := by
  cases clear <;> simp

/-- Settles O25. -/
theorem statusWriteClearsFlags : Obligations.StatusWriteClearsFlags := fun s d =>
  ⟨s.statusWrite d, rfl, and_not_eq_ite _ _, and_not_eq_ite _ _, rfl, and_not_eq_ite _ _, and_not_eq_ite _ _, rfl⟩

/-- Settles O26. -/
theorem ctrlWriteSetsEnables : Obligations.CtrlWriteSetsEnables := by
  intro s d noReset
  refine ⟨transact_ctrl noReset s, ?_⟩
  rw [transact_ctrl noReset, memRead_ctrl]
  exact ctrlWord_of_enables rfl rfl

/-- Settles O58. -/
theorem interruptOutput : Obligations.InterruptOutput := by
  intro s d applied noReset
  have kept : (s.transact (.write 0x008 d 0b1111)).env.resetApplied = true := by
    rw [transact_ctrl noReset]; exact applied
  rw [State.irqOutput_of_applied applied, State.irqOutput_of_applied kept, transact_ctrl noReset]
  exact ⟨rfl, rfl⟩

/-- Settles O57: an accepted write replaces `LASTCMD`, a refused one and a completion leave it. -/
theorem cmdReadsLastAcceptedWord : Obligations.CmdReadsLastAcceptedWord := by
  refine ⟨rfl, fun s d => ⟨memRead_cmd s, fun free => ?_, fun blocked => ?_, ?_⟩⟩
  · obtain ⟨blocked, -⟩ | ⟨-, -, accepted⟩ := cmdWrite_cases s d
    · exact absurd blocked free
    · rw [State.transact, memWrite_cmd, accepted, memRead_cmd]; rfl
  · obtain ⟨-, refused⟩ | ⟨idle, noErr, -⟩ := cmdWrite_cases s d
    · rw [State.transact, memWrite_cmd, refused, memRead_cmd]; rfl
    · simp [idle, noErr] at blocked
  · obtain ⟨rd, r, completed⟩ := completeInFlight_eq s
    exact ⟨_, completed, State.complete_lastCmd s rd r⟩

/-- After reset `MOD` is 0, which is no valid modulus (R18, R34). -/
theorem modOk_reset : State.reset.modOk = false := by
  have zero : State.reset.mod.toNat = 0 := BitVec.toNat_zero
  simp [State.modOk, modulusValid, zero]

theorem statusWord_reset : State.reset.statusWord = 0 := by
  rw [State.statusWord, modOk_reset]
  rfl

/-- Settles O42. -/
theorem resetStateValues : Obligations.ResetStateValues := by
  refine ⟨fun k => ?_, State.unitReset_mod State.reset, modOk_reset, rfl, ?_, rfl, rfl, rfl, rfl, rfl, rfl⟩
  · simp [State.reset]
  · rw [memRead_status, statusWord_reset]

/-! ## Reserved offsets and identification registers -/

theorem memRead_reserved {s : State} {off : Offset} (aligned : off.toNat % 4 = 0) (h : target off = .reserved) :
    s.memRead off = (0, s.accessError) := by
  simp [State.memRead, aligned, h]

theorem memWrite_reserved {s : State} {off : Offset} (h : target off = .reserved) (d : Word) (strb : Strobe) :
    s.memWrite off d strb = s.accessError := by
  rw [State.memWrite, h]
  simp

/-- Above the named registers, a page without a window is reserved (R20, R28). -/
theorem target_of_no_page {off : Offset} (high : 0x01C ≤ off.toNat) (h : pageRegister (off.toNat / 256) = none) :
    target off = .reserved := by
  have ne (c : Offset) (hc : c.toNat < 0x01C) : off ≠ c := by
    rintro rfl
    omega
  rw [target, if_neg (ne _ (by decide)), if_neg (ne _ (by decide)), if_neg (ne _ (by decide)),
    if_neg (ne _ (by decide)), if_neg (ne _ (by decide)), if_neg (ne _ (by decide)), h]

/-- Pages 1 to 9 have windows and no other page has one (R20). -/
theorem pageRegister_none {page : Nat} (h : page = 0 ∨ 10 ≤ page) : pageRegister page = none := by
  rw [pageRegister, if_neg (by omega), dif_neg (by omega)]

/-- The reserved offsets (R20, R28). -/
theorem target_reserved {off : Offset}
    (h : off = 0x014 ∨ (0x01C ≤ off.toNat ∧ off.toNat ≤ 0x0FC) ∨ 0xA00 ≤ off.toNat) : target off = .reserved := by
  obtain rfl | ⟨low, high⟩ | beyond := h
  · rfl
  · exact target_of_no_page low (pageRegister_none (.inl (by omega)))
  · exact target_of_no_page (by omega) (pageRegister_none (.inr (by omega)))

/-- Settles O39. -/
theorem reservedAndReadOnlyOffsets : Obligations.ReservedAndReadOnlyOffsets := by
  intro s off d aligned
  refine ⟨fun reserved => ?_, ?_⟩
  · have h := target_reserved reserved
    exact ⟨memRead_reserved aligned h, memWrite_reserved h d _⟩
  · rintro (rfl | rfl | rfl) <;> exact ⟨rfl, rfl⟩

end Sys2Proof.Machine
end

section
/-! SUPPORT. What a reset gives, and what is refused until there is one. -/

namespace Sys2Proof.Machine

/-! ## Every kind of reset -/

theorem clockEdge_reset {p : Pins} (low : p.rstN = false) (noReq : p.req = false) (ack : Bool) (s : State) :
    clockEdge p ack s = hardReset s := by
  simp [clockEdge, low, noReq]

theorem performTransaction_softReset {tr : Transaction} (soft : tr.isSoftReset = true) (s : State) :
    performTransaction tr s = .next (s.unitReset.respond .writeDone) := by
  simp [performTransaction, soft, transact_of_softReset soft]

/-- Settles O43: a reset through the pins or at transaction level and a soft one give the same unit, and differ only in the
port's answer. -/
theorem everyResetGivesResetState : Obligations.EveryResetGivesResetState := by
  intro s e rest schedule noRequest kind
  have hard : hardReset (s.begin rest) = .next (s.begin rest).unitReset := by simp [hardReset, noRequest]
  have reset : ∃ r, takeEvent e (s.begin rest) = .next ((s.begin rest).unitReset.respond r) := by
    obtain rfl | ⟨p, ack, rfl, low, noReq⟩ | ⟨d, rfl, bit⟩ := kind
    · exact ⟨.none, hard⟩
    · exact ⟨.none, (clockEdge_reset low noReq ack _).trans hard⟩
    · exact ⟨.writeDone, performTransaction_softReset (by simp [Transaction.isSoftReset, bit]) _⟩
  obtain ⟨r, taken⟩ := reset
  exact ⟨_, (step_of_schedule schedule).trans taken, rfl, rfl, rfl, rfl, rfl⟩

/-! ## Before the first reset -/

theorem performTransaction_refused {s : State} (unset : s.env.resetApplied = false) {tr : Transaction}
    (hard : tr.isSoftReset = false) : performTransaction tr s = .refused .resetNotApplied := by
  simp [performTransaction, unset, hard]

theorem hostTurn_refused {s : State} (unset : s.env.resetApplied = false) {k : Nat} {h : HostAgent} {tr : Transaction}
    (host : s.env.hosts[k]? = some h) (move : h.move = .issue tr) (hard : tr.isSoftReset = false) :
    hostTurn k s = .refused .resetNotApplied := by
  simp [hostTurn, host, move, performTransaction_refused unset hard]

/-- An acknowledged edge performs the request the port holds (R37). -/
theorem clockEdge_acknowledged {s : State} {p q : Pins} (high : p.rstN = true) (request : s.env.request = some q)
    (held : p.holds q = true) : clockEdge p true s = performTransaction p.transaction (s.setRequest none) := by
  simp [clockEdge, high, request, held]

/-- Settles O44: each agent's turn comes to the engine's refusal or to that of its transaction. -/
theorem nothingRunsBeforeReset : Obligations.NothingRunsBeforeReset := by
  intro s rest
  refine ⟨fun unset => ⟨fun next => ?_, fun tr schedule hard => ?_, fun k h tr schedule host move hard => ?_,
    fun p q schedule high request held hard => ?_⟩, fun schedule => ?_⟩
  · rw [step_of_engineNext next]
    simp [engineTurn, unset]
  · rw [step_of_schedule schedule]
    exact performTransaction_refused (s := s.begin rest) unset hard
  · rw [step_of_schedule schedule]
    exact hostTurn_refused (s := s.begin rest) unset host move hard
  · rw [step_of_schedule schedule]
    exact (clockEdge_acknowledged (s := s.begin rest) high request held).trans
      (performTransaction_refused (s := (s.begin rest).setRequest none) unset hard)
  · exact ⟨_, step_of_schedule schedule, rfl, rfl, rfl, rfl⟩

end Sys2Proof.Machine
end

section
/-! SUPPORT. The windows of `MOD` and `R0` to `R7`: a word read back, a register as the sum of its words, windows while a
command is in flight, and the accesses that only set `ACCERR`. -/

namespace Sys2Proof.Machine

/-! ## Words of an idle unit's windows -/

/-- A sum over a range is the same from its end down. -/
theorem sum_map_range_reflect (f : Nat → Nat) (n : Nat) :
    ((List.range n).map fun i => f (n - 1 - i)).sum = ((List.range n).map f).sum :=
  Finset.sum_range_reflect f n

/-- Settles O35: the words from the most significant one down are `sum_words` taken from its end. -/
theorem windowIsBigEndian : Obligations.WindowIsBigEndian := by
  intro s x idle
  have word : ∀ j ∈ List.range 64, (s.memRead (BitVec.ofNat 12 (windowBase x + 4 * j))).1.toNat * 2 ^ (32 * (63 - j)) =
      (wordOf (s.readBig x) j).toNat * 2 ^ wordShift j := fun j mem => by
    have hj : j ≤ 63 := Nat.le_of_lt_succ (List.mem_range.mp mem)
    rw [← windowOffset, memRead_window_idle idle x hj, wordShift]
  rw [List.map_congr_left word, ← sum_map_range_reflect, sum_words _ 64 le_rfl, Nat.mod_eq_of_lt (s.readBig x).isLt]

/-- A write of a word leaves every other word of every window (R43). -/
theorem wordOf_readBig_writeWord_other (s : State) {x y : BigReg} {i j : Nat} (hi : i ≤ 63) (hj : j ≤ 63)
    (other : y ≠ x ∨ i ≠ j) (d : Word) :
    wordOf ((s.writeBig x (withWord (s.readBig x) j d)).readBig y) i = wordOf (s.readBig y) i := by
  by_cases same : y = x
  · subst same
    rw [readBig_writeBig_same, wordOf_withWord_other _ hi hj (other.resolve_left fun ne => ne rfl)]
  · rw [readBig_writeBig_other s same]

/-- A write to a register that has a window is a write to `regs` or to `mod`. -/
theorem writeBig_frame (s : State) (x : BigReg) (v : Operand) :
    s.writeBig x v = { s with regs := (s.writeBig x v).regs, mod := (s.writeBig x v).mod } := by
  cases x <;> rfl

/-- Settles O34: the unit is still idle after the write, so each read is of a word of a register. -/
theorem windowWriteThenRead : Obligations.WindowWriteThenRead := by
  intro s x j d idle hj
  have stillIdle : (s.writeBig x (withWord (s.readBig x) j d)).busy = false := (State.writeBig_busy ..).trans idle
  refine ⟨s.writeBig x (withWord (s.readBig x) j d), ?_, ?_, fun y i hi other => ?_, writeBig_frame ..⟩
  · rw [State.transact, memWrite_window_idle idle x hj]
  · rw [memRead_window_idle stillIdle x hj, readBig_writeBig_same, wordOf_withWord_same]
  · rw [memRead_window_idle stillIdle y hi, memRead_window_idle idle y hi]
    exact wordOf_readBig_writeWord_other s hi hj other d

/-! ## Accesses that only set `ACCERR` -/

/-- Settles O36: a window's word is blocked, and each register outside the windows stands at its own offset. -/
theorem busyBlocksWindows : Obligations.BusyBlocksWindows := fun s x _ d busy hj =>
  ⟨memRead_window_busy busy x hj, memWrite_window_busy busy x hj d, rfl, rfl, rfl, memRead_ctrl s, memRead_status s,
    memRead_cmd s, memWrite_ctrl s d, memWrite_status s d, memWrite_cmd s d⟩

theorem memRead_misaligned (s : State) {off : Offset} (mis : off.toNat % 4 ≠ 0) : s.memRead off = (0, s.accessError) :=
  if_pos mis

theorem memWrite_not_allowed (s : State) {off : Offset} {strb : Strobe} (bad : off.toNat % 4 ≠ 0 ∨ strb ≠ 0b1111)
    (d : Word) : s.memWrite off d strb = s.accessError :=
  if_pos bad

/-- Settles O37. -/
theorem misalignedAccessOnlySetsAccerr : Obligations.MisalignedAccessOnlySetsAccerr := fun s _ d _ mis =>
  ⟨memRead_misaligned s mis, memWrite_not_allowed s (.inl mis) d⟩

/-- Settles O38. -/
theorem partialWriteOnlySetsAccerr : Obligations.PartialWriteOnlySetsAccerr := fun s _ d _ part =>
  memWrite_not_allowed s (.inr part) d

/-- Settles O40: a read is one of the blocked ones, or leaves the state, and not both. -/
theorem readSideEffects : Obligations.ReadSideEffects := by
  intro s off
  obtain ⟨read, blocked⟩ | ⟨unchanged, allowed⟩ := memRead_cases s off
  · exact ⟨fun _ => read, fun allowed => absurd blocked allowed⟩
  · exact ⟨fun blocked => absurd blocked allowed, fun _ => unchanged⟩

end Sys2Proof.Machine
end

section
/-! SUPPORT. A transaction's answer on the port (R36, R47), and the two clock edges of a request on the pins (R37). -/

namespace Sys2Proof.Machine

/-- Every transaction is answered on the port (R47). -/
theorem ackPin_transact (s : State) (tr : Transaction) : (s.transact tr).ackPin = true := by
  cases tr <;> rfl

/-- Settles O41. -/
theorem everyTransactionCompletes : Obligations.EveryTransactionCompletes := by
  intro s tr rest applied schedule
  refine ⟨?_, ackPin_transact _ tr⟩
  rw [step_of_schedule schedule]
  exact performTransaction_applied (s := s.begin rest) applied tr

/-- At the first edge that sees it a request is only held (R37). -/
theorem clockEdge_starts {s : State} {p : Pins} (high : p.rstN = true) (req : p.req = true)
    (free : s.env.request = none) (ack : Bool) : clockEdge p ack s = .next (s.setRequest (some p)) := by
  simp [clockEdge, high, req, free]

/-- Pins that stay as they are hold their request (R37). -/
theorem Pins.holds_self {p : Pins} (req : p.req = true) : p.holds p = true := by
  simp [Pins.holds, req]

/-- When the held request is taken from a port that was free before it, nothing of its start is left. -/
theorem setRequest_none_of_started {s : State} (free : s.env.request = none) (es rest : List Event) (p : Pins) :
    (((s.begin es).setRequest (some p)).begin rest).setRequest none = s.begin rest := by
  simp only [State.begin, State.setRequest, ← free]

/-- Settles O46: the first edge makes the port hold the request, the second takes it from there and performs it. -/
theorem pinRequestPerformsTransaction : Obligations.PinRequestPerformsTransaction := by
  intro s p ack rest applied free high req schedule
  refine ⟨(s.begin (.edge p true :: rest)).setRequest (some p), ?_, rfl, rfl, ?_⟩
  · rw [step_of_schedule schedule]
    exact clockEdge_starts (s := s.begin _) high req free ack
  · calc step ((s.begin (.edge p true :: rest)).setRequest (some p))
        = clockEdge p true (((s.begin (.edge p true :: rest)).setRequest (some p)).begin rest) :=
          step_of_schedule (e := .edge p true) rfl
      _ = performTransaction p.transaction (s.begin rest) := by
          rw [clockEdge_acknowledged high rfl (Pins.holds_self req), setRequest_none_of_started free]
      _ = .next ((s.begin rest).transact p.transaction) := performTransaction_applied (s := s.begin rest) applied _

end Sys2Proof.Machine
end

section
/-! SUPPORT. Decoding by fields (R54 to R59): which words have the fields of a command, and what `Decode` says of them. -/

namespace Sys2Proof

/-! ## Words with the fields of a command -/

/-- The five fields of the word are those of the command (R54, R58). -/
structure HasFields (w : Word) (i : Instr) : Prop where
  opc : fieldOpc w = BitVec.ofNat 8 (opcodeOf i)
  rd : fieldRd w = BitVec.ofNat 4 (fieldsOf i).1
  rs1 : fieldRs1 w = BitVec.ofNat 4 (fieldsOf i).2.1
  rs2 : fieldRs2 w = BitVec.ofNat 4 (fieldsOf i).2.2
  rsv : fieldRsv w = 0#12

theorem opcodeOf_le (i : Instr) : opcodeOf i ≤ 4 := by cases i <;> simp [opcodeOf]

/-- The register fields of a command are 4 bits wide (R54). -/
theorem fieldsOf_lt (i : Instr) : (fieldsOf i).1 < 16 ∧ (fieldsOf i).2.1 < 16 ∧ (fieldsOf i).2.2 < 16 := by
  cases i with
  | nop => simp [fieldsOf]
  | modmul rd rs1 rs2 | modexp rd rs1 rs2 => exact ⟨rd.isLt, rs1.isLt, rs2.isLt⟩
  | modinv rd rs1 | modsqrt rd rs1 => exact ⟨rd.isLt, rs1.isLt, Nat.succ_pos 15⟩

/-- The register fields of a well-formed command name registers (R55, R56). -/
theorem fieldsOf_le {i : Instr} (wf : i.wellFormed = true) :
    (fieldsOf i).1 ≤ 7 ∧ (fieldsOf i).2.1 ≤ 7 ∧ (fieldsOf i).2.2 ≤ 7 := by
  cases i <;> simp_all [Instr.wellFormed, Instr.fields, fieldsOf]

theorem wellFormed_modmul {rd rs1 rs2 : RegField} (hd : rd.toNat ≤ 7) (h1 : rs1.toNat ≤ 7) (h2 : rs2.toNat ≤ 7) :
    (Instr.modmul rd rs1 rs2).wellFormed = true := by
  simp [Instr.wellFormed, Instr.fields, hd, h1, h2]

theorem wellFormed_modinv {rd rs1 : RegField} (hd : rd.toNat ≤ 7) (h1 : rs1.toNat ≤ 7) :
    (Instr.modinv rd rs1).wellFormed = true := by
  simp [Instr.wellFormed, Instr.fields, hd, h1]

/-- A word has the fields of a command exactly when it is the command's encoding: the five fields are all its bits. -/
theorem hasFields_iff {w : Word} {i : Instr} : HasFields w i ↔ encode i = w := by
  have word := encode_toNat i
  have opcLe := opcodeOf_le i
  obtain ⟨rdLt, rs1Lt, rs2Lt⟩ := fieldsOf_lt i
  constructor
  · rintro ⟨opc, rd, rs1, rs2, rsv⟩
    rw [BitVec.toNat_eq, BitVec.toNat_ofNat] at opc rd rs1 rs2 rsv
    rw [fieldOpc_toNat] at opc
    rw [fieldRd_toNat] at rd
    rw [fieldRs1_toNat] at rs1
    rw [fieldRs2_toNat] at rs2
    rw [fieldRsv_toNat] at rsv
    apply BitVec.eq_of_toNat_eq
    omega
  · rintro rfl
    constructor <;> rw [BitVec.toNat_eq, BitVec.toNat_ofNat]
    · rw [fieldOpc_toNat]; omega
    · rw [fieldRd_toNat]; omega
    · rw [fieldRs1_toNat]; omega
    · rw [fieldRs2_toNat]; omega
    · rw [fieldRsv_toNat]; omega

/-! ## The decoder -/

/-- Bit 3 of a field that names a register is 0 (R56). -/
theorem not_seven_lt_iff {f : RegField} : ¬7#4 < f ↔ f.toNat ≤ 7 := Nat.not_lt

theorem eq_ofNat_toNat (f : RegField) : f = BitVec.ofNat 4 f.toNat := by simp

/-- A word with the fields of a well-formed command decodes to it (R59). -/
theorem decode_of_hasFields {w : Word} {i : Instr} (wf : i.wellFormed = true) (h : HasFields w i) :
    decode w = .cmd i := by
  obtain ⟨opc, rd, rs1, rs2, rsv⟩ := h
  obtain ⟨rdLe, rs1Le, rs2Le⟩ := fieldsOf_le wf
  cases i with
  | nop => simp [decode, opc, rd, rs1, rs2, rsv, opcodeOf, fieldsOf]
  | modmul d a b | modexp d a b =>
    simp only [fieldsOf, BitVec.ofNat_toNat, BitVec.setWidth_eq] at rd rs1 rs2
    simp [decode, opc, rd, rs1, rs2, rsv, opcodeOf, not_seven_lt_iff.2 rdLe, not_seven_lt_iff.2 rs1Le,
      not_seven_lt_iff.2 rs2Le]
  | modinv d a | modsqrt d a =>
    simp only [fieldsOf, BitVec.ofNat_toNat, BitVec.setWidth_eq] at rd rs1 rs2
    simp [decode, opc, rd, rs1, rs2, rsv, opcodeOf, not_seven_lt_iff.2 rdLe, not_seven_lt_iff.2 rs1Le]

/-- Everything `Decode` can say of a word (R59): an opcode above the table's, a fault in its other fields, or the command
whose fields it has. -/
theorem decode_cases (w : Word) :
    (4 < (fieldOpc w).toNat ∧ decode w = .illegalOpcode) ∨
    ((fieldOpc w).toNat ≤ 4 ∧ decode w = .illegalOperand) ∨
    ∃ i : Instr, i.wellFormed = true ∧ HasFields w i ∧ decode w = .cmd i := by
  by_cases above : 0x04#8 < fieldOpc w
  · exact .inl ⟨above, if_pos above⟩
  right
  have inTable : (fieldOpc w).toNat ≤ 4 := Nat.not_lt.1 above
  rw [decode, if_neg above]
  split
  case isTrue zero =>
    split
    case isTrue zeros =>
      obtain ⟨rd, rs1, rs2, rsv⟩ := zeros
      exact .inr ⟨.nop, rfl, ⟨zero, rd, rs1, rs2, rsv⟩, rfl⟩
    case isFalse => exact .inl ⟨inTable, rfl⟩
  case isFalse nonzero =>
    split
    case isTrue => exact .inl ⟨inTable, rfl⟩
    case isFalse used =>
      push Not at used
      obtain ⟨rsv, rdLow, rs1Low⟩ := used
      have rdLe := not_seven_lt_iff.1 rdLow
      have rs1Le := not_seven_lt_iff.1 rs1Low
      split
      case isTrue twoSource =>
        split
        case isTrue => exact .inl ⟨inTable, rfl⟩
        case isFalse rs2Low =>
          have wf := wellFormed_modmul rdLe rs1Le (not_seven_lt_iff.1 rs2Low)
          split
          case isTrue one =>
            exact .inr ⟨.modmul _ _ _, wf, ⟨one, eq_ofNat_toNat _, eq_ofNat_toNat _, eq_ofNat_toNat _, rsv⟩, rfl⟩
          case isFalse notOne =>
            have four := twoSource.resolve_left notOne
            exact .inr ⟨.modexp _ _ _, wf, ⟨four, eq_ofNat_toNat _, eq_ofNat_toNat _, eq_ofNat_toNat _, rsv⟩, rfl⟩
      case isFalse oneSource =>
        split
        case isTrue => exact .inl ⟨inTable, rfl⟩
        case isFalse rs2 =>
          push Not at rs2
          have wf := wellFormed_modinv rdLe rs1Le
          split
          case isTrue two => exact .inr ⟨.modinv _ _, wf, ⟨two, eq_ofNat_toNat _, eq_ofNat_toNat _, rs2, rsv⟩, rfl⟩
          case isFalse notTwo =>
            have three : fieldOpc w = 3 := by bv_omega
            exact .inr ⟨.modsqrt _ _, wf, ⟨three, eq_ofNat_toNat _, eq_ofNat_toNat _, rs2, rsv⟩, rfl⟩

/-! ## Encoding and decoding -/

/-- Settles O2: the fields of the encoding are the command's, and they decide what `Decode` says. -/
theorem encodeThenDecode : Obligations.EncodeThenDecode := fun _ wf => decode_of_hasFields wf (hasFields_iff.2 rfl)

/-- Settles O3: of the three verdicts only the last is a command, and there the word has its fields. -/
theorem decodeThenEncode : Obligations.DecodeThenEncode := by
  intro w i h
  obtain ⟨-, verdict⟩ | ⟨-, verdict⟩ | ⟨j, wf, fields, verdict⟩ := decode_cases w <;> rw [h] at verdict <;> cases verdict
  exact ⟨wf, hasFields_iff.1 fields⟩

/-- Settles O5: the three verdicts exclude each other, and a word that a well-formed command encodes to has the last. -/
theorem illegalVerdicts : Obligations.IllegalVerdicts := by
  intro w
  rw [← fieldOpc_toNat]
  obtain ⟨above, verdict⟩ | ⟨inTable, verdict⟩ | ⟨i, wf, fields, verdict⟩ := decode_cases w
  · simp only [verdict, reduceCtorEq, true_iff, false_iff]
    omega
  · have noCommand : ∀ i : Instr, i.wellFormed = true → encode i ≠ w := by
      rintro i wf rfl
      rw [encodeThenDecode i wf] at verdict
      cases verdict
    simp only [verdict, reduceCtorEq, true_iff, false_iff]
    exact ⟨by omega, by omega, noCommand⟩
  · have inTable : (fieldOpc w).toNat < 5 := by
      rw [fields.opc, BitVec.toNat_ofNat]
      have := opcodeOf_le i
      omega
    simp only [verdict, reduceCtorEq, false_iff]
    exact ⟨by omega, fun noCommand => noCommand.2 i wf (hasFields_iff.1 fields)⟩

/-! ## The opcode table -/

/-- A word masked to a value is masked to it field by field (R54). -/
theorem fields_of_and {w m t : Word} (h : w &&& m = t) :
    fieldOpc w &&& fieldOpc m = fieldOpc t ∧ fieldRd w &&& fieldRd m = fieldRd t ∧
      fieldRs1 w &&& fieldRs1 m = fieldRs1 t ∧ fieldRs2 w &&& fieldRs2 m = fieldRs2 t ∧
      fieldRsv w &&& fieldRsv m = fieldRsv t := by
  subst h
  exact ⟨(BitVec.extractLsb'_and ..).symm, (BitVec.extractLsb'_and ..).symm, (BitVec.extractLsb'_and ..).symm,
    (BitVec.extractLsb'_and ..).symm, (BitVec.extractLsb'_and ..).symm⟩

/-- The masks test bit 3 of a field that names a register (R56, R58). -/
theorem toNat_le_of_and_eight {f : RegField} : f &&& 8 = 0 → f.toNat ≤ 7 := by
  revert f; decide

/-- What the mask of the two-source rows says of a word (R58). -/
theorem fields_of_twoSourceMask {w t : Word} (h : w &&& 0xFF888FFF = t)
    (ht : fieldRd t = 0 ∧ fieldRs1 t = 0 ∧ fieldRs2 t = 0 ∧ fieldRsv t = 0) :
    fieldOpc w = fieldOpc t ∧ (fieldRd w).toNat ≤ 7 ∧ (fieldRs1 w).toNat ≤ 7 ∧ (fieldRs2 w).toNat ≤ 7 ∧
      fieldRsv w = 0 := by
  obtain ⟨opc, rd, rs1, rs2, rsv⟩ := fields_of_and h
  obtain ⟨rd0, rs10, rs20, rsv0⟩ := ht
  exact ⟨BitVec.and_allOnes.symm.trans opc, toNat_le_of_and_eight (rd.trans rd0), toNat_le_of_and_eight (rs1.trans rs10),
    toNat_le_of_and_eight (rs2.trans rs20), BitVec.and_allOnes.symm.trans (rsv.trans rsv0)⟩

/-- What the mask of the one-source rows says of a word (R58). -/
theorem fields_of_oneSourceMask {w t : Word} (h : w &&& 0xFF88FFFF = t)
    (ht : fieldRd t = 0 ∧ fieldRs1 t = 0 ∧ fieldRs2 t = 0 ∧ fieldRsv t = 0) :
    fieldOpc w = fieldOpc t ∧ (fieldRd w).toNat ≤ 7 ∧ (fieldRs1 w).toNat ≤ 7 ∧ fieldRs2 w = 0 ∧ fieldRsv w = 0 := by
  obtain ⟨opc, rd, rs1, rs2, rsv⟩ := fields_of_and h
  obtain ⟨rd0, rs10, rs20, rsv0⟩ := ht
  exact ⟨BitVec.and_allOnes.symm.trans opc, toNat_le_of_and_eight (rd.trans rd0), toNat_le_of_and_eight (rs1.trans rs10),
    BitVec.and_allOnes.symm.trans (rs2.trans rs20), BitVec.and_allOnes.symm.trans (rsv.trans rsv0)⟩

/-- A command's word lies in the command's row of the opcode table (R58). -/
theorem and_mask_of_decode {w : Word} {i : Instr} (row : Laws.EncodingFitsTable.Statement i) (h : decode w = .cmd i) :
    w &&& tableMask i = tableMatch i := by
  obtain ⟨wf, rfl⟩ := decodeThenEncode w i h
  exact row wf

/-- Settles O4: a command's word lies in its row by `Laws.EncodingFitsTable`, and a word in the row has the fields of the
command that its register fields name. -/
theorem decoderAgreesWithOpcodeTable : Obligations.DecoderAgreesWithOpcodeTable := by
  intro w
  refine ⟨⟨and_mask_of_decode Laws.EncodingFitsTable.nop, fun h => ?_⟩, ⟨?_, fun h => ?_⟩, ⟨?_, fun h => ?_⟩,
    ⟨?_, fun h => ?_⟩, ⟨?_, fun h => ?_⟩⟩
  · have zero : w = 0 := BitVec.and_allOnes.symm.trans h
    rw [zero]
    rfl
  · rintro ⟨rd, rs1, rs2, h⟩
    exact and_mask_of_decode (Laws.EncodingFitsTable.modmul rd rs1 rs2) h
  · obtain ⟨opc, rd, rs1, rs2, rsv⟩ := fields_of_twoSourceMask h ⟨rfl, rfl, rfl, rfl⟩
    exact ⟨_, _, _, decode_of_hasFields (wellFormed_modmul rd rs1 rs2)
      ⟨opc, eq_ofNat_toNat _, eq_ofNat_toNat _, eq_ofNat_toNat _, rsv⟩⟩
  · rintro ⟨rd, rs1, h⟩
    exact and_mask_of_decode (Laws.EncodingFitsTable.modinv rd rs1) h
  · obtain ⟨opc, rd, rs1, rs2, rsv⟩ := fields_of_oneSourceMask h ⟨rfl, rfl, rfl, rfl⟩
    exact ⟨_, _, decode_of_hasFields (wellFormed_modinv rd rs1) ⟨opc, eq_ofNat_toNat _, eq_ofNat_toNat _, rs2, rsv⟩⟩
  · rintro ⟨rd, rs1, h⟩
    exact and_mask_of_decode (Laws.EncodingFitsTable.modsqrt rd rs1) h
  · obtain ⟨opc, rd, rs1, rs2, rsv⟩ := fields_of_oneSourceMask h ⟨rfl, rfl, rfl, rfl⟩
    exact ⟨_, _, decode_of_hasFields (i := .modsqrt _ _) (wellFormed_modinv rd rs1)
      ⟨opc, eq_ofNat_toNat _, eq_ofNat_toNat _, rs2, rsv⟩⟩
  · rintro ⟨rd, rs1, rs2, h⟩
    exact and_mask_of_decode (Laws.EncodingFitsTable.modexp rd rs1 rs2) h
  · obtain ⟨opc, rd, rs1, rs2, rsv⟩ := fields_of_twoSourceMask h ⟨rfl, rfl, rfl, rfl⟩
    exact ⟨_, _, _, decode_of_hasFields (i := .modexp _ _ _) (wellFormed_modmul rd rs1 rs2)
      ⟨opc, eq_ofNat_toNat _, eq_ofNat_toNat _, eq_ofNat_toNat _, rsv⟩⟩

/-- Settles O1: the legal words are encodings written out, so O2 decodes them. -/
theorem exampleWordsDecode : Obligations.ExampleWordsDecode :=
  ⟨encodeThenDecode .nop rfl, encodeThenDecode (.modmul 2 0 1) rfl, encodeThenDecode (.modinv 1 0) rfl,
    encodeThenDecode (.modsqrt 3 3) rfl, encodeThenDecode (.modexp 7 6 5) rfl, rfl,
    (illegalVerdicts 0x07F00ABC).1.2 (by decide)⟩

end Sys2Proof

namespace Sys2Proof.Machine

/-! ## Illegal words and commands -/

/-- Settles O9. -/
theorem illegalWordEndsWithItsError : Obligations.IllegalWordEndsWithItsError := by
  intro s rest applied busy next
  rw [step_of_inFlight applied busy next, completeInFlight]
  refine ⟨fun h => ?_, fun h => ?_⟩
  · rw [State.begin_lastCmd, h]; rfl
  · rw [State.begin_lastCmd, h]; rfl

/-- A command that is not well-formed fails its first check (R67). -/
theorem execResult_of_illFormed {i : Instr} (ill : i.wellFormed = false) (s : State) :
    execResult i s = .fail .illegalOperand := by
  obtain ⟨rfl, -⟩ | ⟨-, operand⟩ | ⟨-, wf, -⟩ | ⟨-, wf, -⟩ := execResult_cases i s
  · cases ill
  · exact operand
  · rw [ill] at wf; cases wf
  · rw [ill] at wf; cases wf

/-- Settles O17: the command fails its first check, and by O3 a word decodes to well-formed commands only. -/
theorem fieldOutsideFileIsIllegalOperand : Obligations.FieldOutsideFileIsIllegalOperand := by
  intro s i ill
  refine ⟨?_, fun w h => ?_⟩
  · rw [exec_eq_complete, execResult_of_illFormed ill, complete_fail]; rfl
  · rw [(decodeThenEncode w i h).1] at ill; cases ill

theorem wellFormed_modsqr {rd rs : RegField} (hd : namesRegister rd = true) (hs : namesRegister rs = true) :
    (modsqr rd rs).wellFormed = true := by
  simp [wellFormed_iff_fields, modsqr, Instr.fields, hd, hs]

/-- Settles O7: `MODSQR` is a well-formed `MODMUL`, so O2 decodes it and its outcome is the product of `rs` with itself. -/
theorem pseudoCommandSquares : Obligations.PseudoCommandSquares := by
  intro rd rs s hd hs
  have wf := wellFormed_modsqr hd hs
  refine ⟨rfl, encodeThenDecode _ wf, fun odd three => ?_⟩
  have square : execResult (modsqr rd rs) s = .okValue (s.regNat rs ^ 2 % s.mod.toNat) := by
    rw [pow_two]
    exact checkedResult_valid _ wf odd three
  rw [exec_eq_complete, square, complete_okValue]
  rfl

end Sys2Proof.Machine
end

section
/-! SUPPORT. Host scripts (R62): the move of each statement, what a host does with the answer, and the statements that take
64 transactions. -/

namespace Sys2Proof.Machine

/-! ## Statements without a transaction -/

/-- The step in which the first host moves on its own, written out: the unit is left alone (R62, R125). -/
theorem step_of_first_host_internal {s : State} {h g : HostAgent} {others : List HostAgent} {rest : List Event}
    (hosts : s.env.hosts = h :: others) (schedule : s.env.schedule = .host 0 :: rest) (move : h.move = .internal g) :
    step s = .next { s with env := { s.env with schedule := rest, response := .none, hosts := g :: others } } := by
  rw [step_of_host_internal hosts schedule move, State.setHost, State.begin_env, hosts]
  rfl

/-- Settles O52, by the host's move at each of its own statements. -/
theorem hostOwnStatementsLeaveUnitAlone : Obligations.HostOwnStatementsLeaveUnitAlone := by
  intro s h others rest hosts schedule running
  refine ⟨fun halt => ?_, fun l goto => ?_, fun c l b ifGoto cond => ?_, fun v e n assign value => ?_⟩ <;>
    refine step_of_first_host_internal hosts schedule ?_
  · simp [HostAgent.move, running, halt]
  · simp [HostAgent.move, running, goto]
  · simp [HostAgent.move, running, ifGoto, cond]
  · simp [HostAgent.move, running, assign, value]

/-! ## Statements with one transaction -/

/-- The transaction a host issues is the one of its statement that it has come to (R62). -/
theorem move_of_transactions {h : HostAgent} {st : HostStmt} {trs : List Transaction} {tr : Transaction}
    (running : h.halted = false) (current : h.script[h.hpc]? = some st) (all : st.transactions h.vars = some trs)
    (this : trs[h.sub]? = some tr) : h.move = .issue tr := by
  have next : h.nextTransaction st = .issue tr := by simp [HostAgent.nextTransaction, all, this]
  cases st with
  | wr | rd | ldbig | rdbig | cmd | wait | ack => simp [HostAgent.move, running, current, next]
  | ifGoto | goto | halt | assign => cases all; simp at this

/-- Settles O50: the word is written to `CMD`, where an idle unit without an error accepts it. -/
theorem commandStatementIssuesEncoding : Obligations.CommandStatementIssuesEncoding := by
  intro s h others i rest applied idle noErr hosts schedule running first current wf
  have move : h.move = .issue (fullWrite 0x010 (encode i)) :=
    move_of_transactions running current (by rw [HostStmt.transactions, if_pos wf]) (by rw [first]; rfl)
  have accepted : (s.begin rest).cmdWrite (encode i) =
      { s.begin rest with lastCmd := encode i, done := false, busy := true } := by
    simp [State.cmdWrite, idle, noErr]
  have after (r : Response) : h.receive r = h.advance := by simp [HostAgent.receive, current]
  refine ⟨_, step_of_host_issue hosts schedule move applied, ?_, ?_⟩
  · rw [fullWrite, State.transact, memWrite_cmd, accepted]; rfl
  · rw [fullWrite, State.transact, memWrite_cmd, accepted, after]
    simp [hosts]

theorem State.begin_statusWord (s : State) (es : List Event) : (s.begin es).statusWord = s.statusWord := rfl

/-- Settles O51: the word read is `STATUS`, whose bit 0 is `BUSY`. -/
theorem waitStatementPollsBusy : Obligations.WaitStatementPollsBusy := by
  intro s h others rest applied hosts schedule running first current
  have move : h.move = .issue (.read 0x00C) := move_of_transactions running current rfl (by rw [first]; rfl)
  have busyBit : s.statusWord.getLsbD 0 = s.busy := (statusWord_flags s).1
  have after : h.receive (.readData s.statusWord) =
      if s.busy then h.setVar statusVar s.statusWord.toNat else (h.setVar statusVar s.statusWord.toNat).advance := by
    rw [HostAgent.receive, current, ← busyBit]; rfl
  refine ⟨_, step_of_host_issue hosts schedule move applied, rfl, ?_⟩
  rw [State.transact, memRead_status, State.begin_statusWord]
  simp [hosts, after]

/-! ## Statements with 64 transactions -/

/-- A run in which every step leads from one stage to the next reaches the last one. -/
theorem run_of_stages {P : Nat → State → Prop} {n : Nat}
    (stage : ∀ j < n, ∀ s, P j s → ∃ t, step s = .next t ∧ P (j + 1) t) {k j : Nat} (total : j + k = n) {s : State}
    (start : P j s) : ∃ t, core.run k s = .next t ∧ P n t := by
  induction k generalizing j s with
  | zero => exact ⟨s, run_zero s, total ▸ start⟩
  | succ k ih =>
    obtain ⟨t, taken, reached⟩ := stage j (by omega) s start
    rw [run_succ_of_next taken]
    exact ih (by omega) reached

/-- An idle unit whose first host `g` has done `j` of its statement's 64 transactions and has the next turns. -/
structure HostAtWord (others : List HostAgent) (rest : List Event) (g : HostAgent) (j : Nat) (s : State) : Prop where
  applied : s.env.resetApplied = true
  idle : s.busy = false
  hosts : s.env.hosts = g :: others
  schedule : s.env.schedule = List.replicate (64 - j) (.host 0) ++ rest

/-- The first host's next transaction: what it makes of the unit, and the host with the answer (R62). -/
theorem HostAtWord.next {others : List HostAgent} {rest : List Event} {g : HostAgent} {j : Nat} {s u : State}
    {tr : Transaction} {r : Response} (at_j : HostAtWord others rest g j s) (hj : j < 64) (move : g.move = .issue tr)
    (effect : ∀ es, (s.begin es).transact tr = (u.begin es).respond r) (env : u.env = s.env) (idle : u.busy = false) :
    ∃ t, step s = .next t ∧ t = { u with env := t.env } ∧ HostAtWord others rest (g.receive r) (j + 1) t := by
  have schedule : s.env.schedule = .host 0 :: (List.replicate (64 - (j + 1)) (.host 0) ++ rest) := by
    rw [at_j.schedule, show 64 - j = 64 - (j + 1) + 1 by omega, List.replicate_succ, List.cons_append]
  refine ⟨_, step_of_host_issue at_j.hosts schedule move at_j.applied, ?_⟩
  rw [effect]
  exact ⟨rfl, by simp [env, at_j.applied], idle, by simp [env, at_j.hosts], rfl⟩

/-- A write of a word to a window of an idle unit (R43). -/
theorem transact_window_write {s : State} (idle : s.busy = false) (x : BigReg) {j : Nat} (hj : j ≤ 63) (d : Word)
    (es : List Event) :
    (s.begin es).transact (fullWrite (windowOffset x j) d) =
      ((s.writeBig x (withWord (s.readBig x) j d)).begin es).respond .writeDone := by
  rw [fullWrite, State.transact, memWrite_window_idle (s := s.begin es) idle x hj]
  cases x <;> rfl

/-- A read of a word from a window of an idle unit (R42). -/
theorem transact_window_read {s : State} (idle : s.busy = false) (x : BigReg) {j : Nat} (hj : j ≤ 63)
    (es : List Event) :
    (s.begin es).transact (.read (windowOffset x j)) =
      (s.begin es).respond (.readData (wordOf (s.readBig x) j)) := by
  rw [State.transact, memRead_window_idle (s := s.begin es) idle x hj]
  cases x <;> rfl

/-! ## `LDBIG` -/

/-- The host that has done `j` of the 64 writes of an `LDBIG`. -/
def HostAgent.loading (h : HostAgent) (j : Nat) : HostAgent := if j < 64 then { h with sub := j } else h.advance

theorem HostAgent.loading_zero {h : HostAgent} (first : h.sub = 0) : h.loading 0 = h := by
  rw [HostAgent.loading, if_pos (by decide), ← first]

theorem HostAgent.loading_receive {h : HostAgent} {x : BigReg} {e : HostExpr} {j : Nat} (hj : j < 64)
    (current : h.script[h.hpc]? = some (.ldbig x e)) : (h.loading j).receive .writeDone = h.loading (j + 1) := by
  rw [HostAgent.loading, if_pos hj, HostAgent.receive, current, HostAgent.loading]
  obtain rfl | more : j = 63 ∨ j < 63 := by omega
  · simp [HostAgent.advance]
  · simp [more]

theorem HostAgent.loading_move {h : HostAgent} {x : BigReg} {e : HostExpr} {j n : Nat} (hj : j < 64)
    (running : h.halted = false) (current : h.script[h.hpc]? = some (.ldbig x e)) (value : e.eval h.vars = some n)
    (fits : n < 2 ^ 2048) :
    (h.loading j).move = .issue (fullWrite (windowOffset x j) (wordOf (BitVec.ofNat 2048 n) j)) := by
  have all : (HostStmt.ldbig x e).transactions h.vars =
      some ((List.range 64).map fun j => fullWrite (windowOffset x j) (wordOf (BitVec.ofNat 2048 n) j)) := by
    rw [HostStmt.transactions, value, Option.bind_eq_bind, Option.bind_some, asBits, if_pos fits]
    rfl
  rw [HostAgent.loading, if_pos hj]
  exact move_of_transactions running current all (by simp [hj])

/-- `t` is `s` with the first `j` words of `x` replaced by those of `v`. -/
structure LoadedWords (s : State) (x : BigReg) (v : Operand) (j : Nat) (t : State) : Prop where
  words : ∀ i < j, wordOf (t.readBig x) i = wordOf v i
  other : ∀ y, y ≠ x → t.readBig y = s.readBig y
  frame : { t with regs := s.regs, mod := s.mod, env := s.env } = s

theorem readBig_env (s : State) (e : Env) (x : BigReg) : { s with env := e }.readBig x = s.readBig x := by
  cases x <;> rfl

theorem LoadedWords.write {s t : State} {x : BigReg} {v : Operand} {j : Nat} (loaded : LoadedWords s x v j t)
    (hj : j < 64) (e : Env) :
    LoadedWords s x v (j + 1) { t.writeBig x (withWord (t.readBig x) j (wordOf v j)) with env := e } := by
  refine ⟨fun i hi => ?_, fun y ne => ?_, ?_⟩
  · rw [readBig_env]
    obtain rfl | before : i = j ∨ i < j := by omega
    · rw [readBig_writeBig_same, wordOf_withWord_same]
    · rw [wordOf_readBig_writeWord_other t (by omega) (by omega) (.inr (by omega)), loaded.words i before]
  · rw [readBig_env, readBig_writeBig_other t ne, loaded.other y ne]
  · cases x <;> exact loaded.frame

/-- The run of an `LDBIG` from `s` after `j` of its writes: where the host is, and what the unit holds. -/
def LoadStage (s : State) (h : HostAgent) (others : List HostAgent) (rest : List Event) (x : BigReg) (v : Operand)
    (j : Nat) (t : State) : Prop :=
  HostAtWord others rest (h.loading j) j t ∧ LoadedWords s x v j t

theorem LoadStage.next {s t : State} {h : HostAgent} {others : List HostAgent} {rest : List Event} {x : BigReg}
    {e : HostExpr} {n j : Nat} (running : h.halted = false) (current : h.script[h.hpc]? = some (.ldbig x e))
    (value : e.eval h.vars = some n) (fits : n < 2 ^ 2048) (hj : j < 64)
    (here : LoadStage s h others rest x (BitVec.ofNat 2048 n) j t) :
    ∃ u, step t = .next u ∧ LoadStage s h others rest x (BitVec.ofNat 2048 n) (j + 1) u := by
  obtain ⟨place, loaded⟩ := here
  obtain ⟨u, taken, unit, after⟩ := place.next hj (HostAgent.loading_move hj running current value fits)
    (transact_window_write place.idle x (by omega) _) (by simp) (by simp [place.idle])
  exact ⟨u, taken, HostAgent.loading_receive hj current ▸ after, unit ▸ loaded.write hj u.env⟩

/-- Settles O48: the stages are the 64 writes, each of one word, and the words make up the register. -/
theorem loadStatementLoadsRegister : Obligations.LoadStatementLoadsRegister := by
  intro s h others x e n rest applied idle hosts schedule running first current value fits
  have start : LoadStage s h others rest x (BitVec.ofNat 2048 n) 0 s := by
    exact ⟨⟨applied, idle, (HostAgent.loading_zero first).symm ▸ hosts, schedule⟩, by simp, fun _ _ => rfl, rfl⟩
  obtain ⟨t, run, place, loaded⟩ :=
    run_of_stages (fun _ hj _ here => here.next running current value fits hj) (Nat.zero_add 64) start
  refine ⟨t, run, eq_of_words fun j hj => loaded.words j (by omega), loaded.other, ?_, place.hosts, place.schedule⟩
  exact congrArg (fun u : State => { u with regs := t.regs, mod := t.mod, env := t.env }) loaded.frame

/-! ## `RDBIG` -/

/-- What the first `j` words of `v` add up to (R62). -/
def gatheredWords (v : Operand) (j : Nat) : Nat :=
  ((List.range j).map fun i => (wordOf v i).toNat * 2 ^ wordShift i).sum

theorem gatheredWords_zero (v : Operand) : gatheredWords v 0 = 0 := rfl

theorem gatheredWords_succ (v : Operand) (j : Nat) :
    gatheredWords v (j + 1) = gatheredWords v j + (wordOf v j).toNat * 2 ^ wordShift j := by
  simp [gatheredWords, List.range_succ]

/-- The 64 words add up to the register (R38, R62). -/
theorem gatheredWords_all (v : Operand) : gatheredWords v 64 = v.toNat := by
  rw [gatheredWords, ← sum_map_range_reflect, sum_words v 64 le_rfl, Nat.mod_eq_of_lt v.isLt]

/-- The host that has done `j` of the 64 reads of an `RDBIG` of the value `v` into `$k`. -/
def HostAgent.reading (h : HostAgent) (k : Nat) (v : Operand) (j : Nat) : HostAgent :=
  if j < 64 then { h with sub := j, acc := gatheredWords v j } else (h.setVar k (gatheredWords v j)).advance

theorem HostAgent.reading_zero {h : HostAgent} {k : Nat} (v : Operand) (first : h.sub = 0) (noSum : h.acc = 0) :
    h.reading k v 0 = h := by
  obtain ⟨script, hpc, sub, acc, vars, halted⟩ := h
  subst first noSum
  rfl

theorem HostAgent.reading_receive {h : HostAgent} {x : BigReg} {k j : Nat} (v : Operand) (hj : j < 64)
    (current : h.script[h.hpc]? = some (.rdbig x k)) :
    (h.reading k v j).receive (.readData (wordOf v j)) = h.reading k v (j + 1) := by
  rw [HostAgent.reading, if_pos hj, HostAgent.receive, current, HostAgent.reading, gatheredWords_succ]
  obtain rfl | more : j = 63 ∨ j < 63 := by omega
  · simp [HostAgent.advance, HostAgent.setVar, HostAgent.gathered, Response.word]
  · simp [more, HostAgent.gathered, Response.word]

theorem HostAgent.reading_move {h : HostAgent} {x : BigReg} {k j : Nat} (v : Operand) (hj : j < 64)
    (running : h.halted = false) (current : h.script[h.hpc]? = some (.rdbig x k)) :
    (h.reading k v j).move = .issue (.read (windowOffset x j)) := by
  rw [HostAgent.reading, if_pos hj]
  exact move_of_transactions running current rfl (by simp [hj])

/-- The run of an `RDBIG` from `s` after `j` of its reads: where the host is, and that the unit is as it was. -/
def ReadStage (s : State) (h : HostAgent) (others : List HostAgent) (rest : List Event) (x : BigReg) (k j : Nat)
    (t : State) : Prop :=
  HostAtWord others rest (h.reading k (s.readBig x) j) j t ∧ t = { s with env := t.env }

theorem ReadStage.next {s t : State} {h : HostAgent} {others : List HostAgent} {rest : List Event} {x : BigReg}
    {k j : Nat} (running : h.halted = false) (current : h.script[h.hpc]? = some (.rdbig x k)) (hj : j < 64)
    (here : ReadStage s h others rest x k j t) :
    ∃ u, step t = .next u ∧ ReadStage s h others rest x k (j + 1) u := by
  obtain ⟨place, same⟩ := here
  have value : t.readBig x = s.readBig x := by rw [same, readBig_env]
  obtain ⟨u, taken, unit, after⟩ := place.next hj (HostAgent.reading_move _ hj running current)
    (transact_window_read place.idle x (by omega)) rfl place.idle
  rw [value, HostAgent.reading_receive _ hj current] at after
  rw [same] at unit
  exact ⟨u, taken, after, unit⟩

/-- Settles O49: the stages are the 64 reads, and the words gathered add up to the register. -/
theorem readStatementReadsRegister : Obligations.ReadStatementReadsRegister := by
  intro s h others x k rest applied idle hosts schedule running first noSum current
  have start : ReadStage s h others rest x k 0 s := by
    exact ⟨⟨applied, idle, (HostAgent.reading_zero _ first noSum).symm ▸ hosts, schedule⟩, rfl⟩
  obtain ⟨t, run, place, same⟩ :=
    run_of_stages (fun _ hj _ here => here.next running current hj) (Nat.zero_add 64) start
  refine ⟨t, run, same, ?_, place.schedule⟩
  rw [place.hosts, HostAgent.reading, if_neg (by decide), gatheredWords_all]

end Sys2Proof.Machine
end

section
/-! SUPPORT. The assembler (R60, R61): letter case, white space, operand lists, and the lines commands are written on. -/

namespace Sys2Proof.Machine

/-! ## Letter case -/

theorem toUpper_toNat (c : Char) :
    c.toUpper.toNat = if 97 ≤ c.toNat ∧ c.toNat ≤ 122 then c.toNat - 32 else c.toNat := by
  have lower : ('a'.val ≤ c.val ∧ c.val ≤ 'z'.val) ↔ (97 ≤ c.toNat ∧ c.toNat ≤ 122) := Iff.rfl
  rw [Char.toUpper]
  split
  · next h =>
    have range := lower.1 h
    rw [if_pos range]
    change (c.val + ('A'.val - 'a'.val)).toNat = c.toNat - 32
    rw [UInt32.toNat_add]
    change (c.toNat + 4294967264) % 2 ^ 32 = _
    omega
  · next h => rw [if_neg (mt lower.2 h)]

theorem toLower_toNat (c : Char) :
    c.toLower.toNat = if 65 ≤ c.toNat ∧ c.toNat ≤ 90 then c.toNat + 32 else c.toNat := by
  have upper : (c.val ≥ 'A'.val ∧ c.val ≤ 'Z'.val) ↔ (65 ≤ c.toNat ∧ c.toNat ≤ 90) := Iff.rfl
  rw [Char.toLower]
  split
  · next h =>
    have range := upper.1 h
    rw [if_pos range]
    change (c.val + ('a'.val - 'A'.val)).toNat = c.toNat + 32
    rw [UInt32.toNat_add]
    change (c.toNat + 32) % 2 ^ 32 = _
    omega
  · next h => rw [if_neg (mt upper.2 h)]

theorem toUpper_toUpper (c : Char) : c.toUpper.toUpper = c.toUpper := by
  rw [← Char.toNat_inj]
  grind [toUpper_toNat]

theorem toUpper_toLower (c : Char) : c.toLower.toUpper = c.toUpper := by
  rw [← Char.toNat_inj]
  grind [toUpper_toNat, toLower_toNat]

/-- A character that is no letter stands in upper case only where it stood before. -/
theorem toUpper_eq_iff {c k : Char} (hk : ¬(65 ≤ k.toNat ∧ k.toNat ≤ 90) ∧ ¬(97 ≤ k.toNat ∧ k.toNat ≤ 122)) :
    c.toUpper = k ↔ c = k := by
  rw [← Char.toNat_inj, ← Char.toNat_inj, toUpper_toNat]
  split <;> omega

theorem isWhitespace_toUpper (c : Char) : c.toUpper.isWhitespace = c.isWhitespace := by
  simp (disch := decide) only [Char.isWhitespace, toUpper_eq_iff]

theorem isR_toUpper (c : Char) : (c.toUpper == 'r' || c.toUpper == 'R') = (c == 'r' || c == 'R') := by
  rw [Bool.eq_iff_iff]
  simp only [Bool.or_eq_true, beq_iff_eq, ← Char.toNat_inj, toUpper_toNat, Char.reduceToNat]
  split <;> omega

/-- A digit stays, and no letter becomes one. -/
theorem digit_toUpper (d : Char) : (('0' ≤ d.toUpper ∧ d.toUpper ≤ '7') ↔ ('0' ≤ d ∧ d ≤ '7')) ∧
    ('0' ≤ d ∧ d ≤ '7' → d.toUpper = d) := by
  have le (a b : Char) : a ≤ b ↔ a.toNat ≤ b.toNat := Iff.rfl
  simp only [le, ← Char.toNat_inj, toUpper_toNat, Char.reduceToNat]
  split <;> omega

theorem registerName_of_no_digit (c : Char) {d : Char} (h : ¬('0' ≤ d ∧ d ≤ '7')) : registerName [c, d] = none := by
  rw [registerName, if_neg]
  simp only [Bool.and_eq_true, decide_eq_true_eq]
  exact fun ⟨⟨_, low⟩, high⟩ => h ⟨low, high⟩

theorem registerName_map_toUpper (cs : List Char) : registerName (cs.map Char.toUpper) = registerName cs := by
  match cs with
  | [] | [_] | _ :: _ :: _ :: _ => rfl
  | [c, d] =>
    obtain ⟨digit, same⟩ := digit_toUpper d
    by_cases h : '0' ≤ d ∧ d ≤ '7'
    · simp only [List.map_cons, List.map_nil, registerName, isR_toUpper, same h]
    · exact (registerName_of_no_digit _ (mt digit.1 h)).trans (registerName_of_no_digit c h).symm

theorem trimmed_map_toUpper (cs : List Char) : trimmed (cs.map Char.toUpper) = (trimmed cs).map Char.toUpper := by
  have same : Char.isWhitespace ∘ Char.toUpper = Char.isWhitespace := funext isWhitespace_toUpper
  simp only [trimmed, List.dropWhile_map, ← List.map_reverse, same]

theorem splitCommas_map_toUpper (cs : List Char) :
    splitCommas (cs.map Char.toUpper) = (splitCommas cs).map (List.map Char.toUpper) := by
  induction cs with
  | nil => rfl
  | cons c cs ih =>
    have comma : (c.toUpper == ',') = (c == ',') := by
      rw [Bool.eq_iff_iff, beq_iff_eq, beq_iff_eq, toUpper_eq_iff (by decide)]
    rw [List.map_cons, splitCommas, ih, splitCommas, comma]
    cases splitCommas cs with
    | nil => rfl
    | cons part parts => cases c == ',' <;> rfl

theorem operandNames_map_toUpper (cs : List Char) : operandNames (cs.map Char.toUpper) = operandNames cs := by
  rw [operandNames, trimmed_map_toUpper, List.isEmpty_map, splitCommas_map_toUpper, List.mapM_map, operandNames]
  simp only [Function.comp_def, trimmed_map_toUpper, registerName_map_toUpper]

/-- The assembler does not see letter case (R60). -/
theorem assemble_map_toUpper (line : List Char) : assemble (line.map Char.toUpper) = assemble line := by
  have noComment : (fun c => decide (c ≠ ';')) ∘ Char.toUpper = fun c => decide (c ≠ ';') := by
    funext c
    simp (disch := decide) only [Function.comp_apply, ne_eq, toUpper_eq_iff]
  have word : (fun c : Char => !c.isWhitespace) ∘ Char.toUpper = fun c => !c.isWhitespace := by
    funext c
    rw [Function.comp_apply, isWhitespace_toUpper]
  simp only [assemble, List.takeWhile_map, List.dropWhile_map, noComment, trimmed_map_toUpper, word,
    operandNames_map_toUpper, List.map_map, Function.comp_def, toUpper_toUpper]

/-- Lines that agree in upper case assemble alike (R60). -/
theorem assemble_congr {line line' : List Char} (same : line.map Char.toUpper = line'.map Char.toUpper) :
    assemble line = assemble line' := by
  rw [← assemble_map_toUpper line, same, assemble_map_toUpper]

theorem assemble_map_toLower (line : List Char) : assemble (line.map Char.toLower) = assemble line := by
  apply assemble_congr
  simp only [List.map_map, Function.comp_def, toUpper_toLower]

/-! ## White space and comments -/

/-- Text that is read as one piece: no white space and no comment (R60). -/
def IsWord (cs : List Char) : Prop := cs.all (fun c => c ≠ ';' && !c.isWhitespace) = true

theorem IsWord.noComment {cs : List Char} (word : IsWord cs) : ∀ c ∈ cs, decide (c ≠ ';') = true := by
  intro c mem
  have := List.all_eq_true.1 word c mem
  simp_all

theorem IsWord.noSpace {cs : List Char} (word : IsWord cs) : ∀ c ∈ cs, c.isWhitespace = false := by
  intro c mem
  have := List.all_eq_true.1 word c mem
  simp_all

theorem IsWord.reverse {cs : List Char} (word : IsWord cs) : IsWord cs.reverse := List.all_reverse.trans word

/-- White space before a word is all that is dropped. -/
theorem IsWord.dropWhile_append {cs : List Char} (word : IsWord cs) (ne : cs ≠ []) (rest : List Char) :
    (cs ++ rest).dropWhile Char.isWhitespace = cs ++ rest := by
  obtain ⟨c, tail, rfl⟩ := List.exists_cons_of_ne_nil ne
  exact List.dropWhile_cons_of_neg (by simp [word.noSpace c])

theorem trimmed_space_cons (cs : List Char) : trimmed (' ' :: cs) = trimmed cs := rfl

theorem splitCommas_ne_nil (cs : List Char) : splitCommas cs ≠ [] := by
  cases cs with
  | nil => simp [splitCommas]
  | cons c cs =>
    rw [splitCommas]
    split
    · exact List.cons_ne_nil _ _
    · split <;> exact List.cons_ne_nil _ _

/-- White space before the operands does not matter (R60). -/
theorem operandNames_space_cons (cs : List Char) : operandNames (' ' :: cs) = operandNames cs := by
  obtain ⟨part, parts, pieces⟩ := List.exists_cons_of_ne_nil (splitCommas_ne_nil cs)
  have more : splitCommas (' ' :: cs) = (' ' :: part) :: parts := by rw [splitCommas, pieces]; rfl
  rw [operandNames, trimmed_space_cons, more, operandNames, pieces, List.mapM_cons, List.mapM_cons, trimmed_space_cons]

theorem trimmed_word {cs : List Char} (word : IsWord cs) : trimmed cs = cs := by
  by_cases empty : cs = []
  · rw [empty]; rfl
  · have front := word.dropWhile_append empty []
    have back := word.reverse.dropWhile_append (by simpa using empty) []
    rw [List.append_nil] at front back
    rw [trimmed, front, back, List.reverse_reverse]

/-- A word and its operands, trimmed: the space between them stays when there are operands. -/
theorem trimmed_line {word args : List Char} (hw : IsWord word) (ne : word ≠ []) (ha : IsWord args) :
    trimmed (word ++ ' ' :: args) = word ++ if args = [] then [] else ' ' :: args := by
  have reversed : (word ++ ' ' :: args).reverse = args.reverse ++ ' ' :: word.reverse := by simp
  rw [trimmed, hw.dropWhile_append ne, reversed]
  split
  · next empty =>
    subst empty
    have space : ([].reverse ++ ' ' :: word.reverse).dropWhile Char.isWhitespace =
        (word.reverse ++ []).dropWhile Char.isWhitespace := by rw [List.append_nil]; rfl
    rw [space, hw.reverse.dropWhile_append (by simpa using ne), List.append_nil, List.reverse_reverse, List.append_nil]
  · next operands =>
    rw [ha.reverse.dropWhile_append (by simpa using operands)]
    simp

/-- How a line with one mnemonic and its operands is read, with or without a comment (R60). -/
theorem assemble_line {word args tail : List Char} (hw : IsWord word) (ne : word ≠ []) (ha : IsWord args)
    (comment : tail.takeWhile (fun c => c ≠ ';') = []) :
    assemble (word ++ ' ' :: args ++ tail) = (operandNames args).bind (commandNamed (word.map Char.toUpper)) := by
  have code : (word ++ ' ' :: args ++ tail).takeWhile (fun c => c ≠ ';') = word ++ ' ' :: args := by
    rw [List.append_assoc, List.takeWhile_append_of_pos hw.noComment, List.cons_append,
      List.takeWhile_cons_of_pos (by decide), List.takeWhile_append_of_pos ha.noComment, comment, List.append_nil]
  have letters : ∀ c ∈ word, (!c.isWhitespace) = true := fun c mem => by rw [hw.noSpace c mem]; rfl
  rw [assemble, code, trimmed_line hw ne ha, List.takeWhile_append_of_pos letters, List.dropWhile_append_of_pos letters]
  have names : operandNames (List.dropWhile (fun c => !c.isWhitespace) (if args = [] then [] else ' ' :: args)) =
      operandNames args := by
    split
    · next empty => rw [empty]; rfl
    · exact operandNames_space_cons args
  have nothing : List.takeWhile (fun c => !c.isWhitespace) (if args = [] then [] else ' ' :: args) = [] := by
    split <;> rfl
  simp only [names, nothing, List.append_nil]
  cases operandNames args <;> rfl

/-! ## Operand lists -/

theorem splitCommas_of_no_comma {part : List Char} (no : ∀ c ∈ part, c ≠ ',') : splitCommas part = [part] := by
  induction part with
  | nil => rfl
  | cons c part ih =>
    rw [splitCommas, ih fun d mem => no d (by simp [mem])]
    simp [no c (by simp)]

theorem splitCommas_append_comma {part : List Char} (no : ∀ c ∈ part, c ≠ ',') (rest : List Char) :
    splitCommas (part ++ ',' :: rest) = part :: splitCommas rest := by
  induction part with
  | nil =>
    obtain ⟨head, tail, pieces⟩ := List.exists_cons_of_ne_nil (splitCommas_ne_nil rest)
    rw [List.nil_append, splitCommas, pieces]
    rfl
  | cons c part ih =>
    rw [List.cons_append, splitCommas, ih fun d mem => no d (by simp [mem])]
    simp [no c (by simp)]

/-- What the name of a field is as text, and whether it is a register name (R56, R60). -/
theorem registerText_facts : ∀ f : RegField,
    ((registerText f).all fun c => c ≠ ',' && c ≠ ';' && !c.isWhitespace) = true ∧ registerText f ≠ [] ∧
      registerName (trimmed (registerText f)) = if namesRegister f then some f else none := by
  decide

theorem registerText_no_comma (f : RegField) : ∀ c ∈ registerText f, c ≠ ',' := by
  intro c mem
  have := List.all_eq_true.1 (registerText_facts f).1 c mem
  simp_all

theorem isWord_registerText (f : RegField) : IsWord (registerText f) := by
  rw [IsWord, List.all_eq_true]
  intro c mem
  have := List.all_eq_true.1 (registerText_facts f).1 c mem
  simp_all

theorem isWord_operandText (ops : List RegField) : IsWord (operandText ops) := by
  match ops with
  | [] => rfl
  | [f] => exact isWord_registerText f
  | f :: g :: fs =>
    have first := isWord_registerText f
    have others := isWord_operandText (g :: fs)
    simp only [IsWord, operandText, List.all_append, List.all_cons, Bool.and_eq_true] at first others ⊢
    exact ⟨first, by decide, others⟩

theorem operandText_ne_nil (f : RegField) (fs : List RegField) : operandText (f :: fs) ≠ [] := by
  cases fs with
  | nil => exact (registerText_facts f).2.1
  | cons g fs => exact List.append_ne_nil_of_right_ne_nil _ (List.cons_ne_nil ',' _)

theorem splitCommas_operandText {ops : List RegField} (ne : ops ≠ []) :
    splitCommas (operandText ops) = ops.map registerText := by
  match ops with
  | [f] => exact splitCommas_of_no_comma (registerText_no_comma f)
  | f :: g :: fs =>
    rw [operandText, splitCommas_append_comma (registerText_no_comma f), splitCommas_operandText (List.cons_ne_nil g fs)]
    rfl

theorem mapM_guard {α : Type} (p : α → Bool) (l : List α) :
    (l.mapM fun a => if p a then some a else none) = if l.all p then some l else none := by
  induction l with
  | nil => rfl
  | cons a l ih =>
    rw [List.mapM_cons, ih, List.all_cons]
    cases p a <;> cases l.all p <;> rfl

/-- Operands are read back from their text exactly when each names a register (R60). -/
theorem operandNames_operandText (ops : List RegField) :
    operandNames (operandText ops) = if ops.all namesRegister then some ops else none := by
  cases ops with
  | nil => rfl
  | cons f fs =>
    have text : ¬(trimmed (operandText (f :: fs))).isEmpty = true := by
      rw [trimmed_word (isWord_operandText _), List.isEmpty_iff]
      exact operandText_ne_nil f fs
    have read : (fun part => registerName (trimmed part)) ∘ registerText = fun f => if namesRegister f then some f else none :=
      funext fun f => (registerText_facts f).2.2
    rw [operandNames, if_neg text, splitCommas_operandText (List.cons_ne_nil f fs), List.mapM_map, read, mapM_guard]

/-- How the line of a mnemonic and its operands is read (R60). -/
theorem assemble_lineText {word tail : List Char} (hw : IsWord word) (ne : word ≠ []) (ops : List RegField)
    (comment : tail.takeWhile (fun c => c ≠ ';') = []) :
    assemble (lineText word ops ++ tail) =
      if ops.all namesRegister then commandNamed (word.map Char.toUpper) ops else none := by
  rw [lineText, assemble_line hw ne (isWord_operandText ops) comment, operandNames_operandText]
  split <;> rfl

/-! ## Mnemonics -/

theorem isWord_mnemonicText (i : Instr) : IsWord (mnemonicText i) := by cases i <;> rfl

theorem mnemonicText_ne_nil (i : Instr) : mnemonicText i ≠ [] := by cases i <;> exact List.cons_ne_nil _ _

theorem mnemonicText_upper (i : Instr) : (mnemonicText i).map Char.toUpper = mnemonicText i := by cases i <;> rfl

theorem commandNamed_mnemonicText (i : Instr) : commandNamed (mnemonicText i) i.fields = some i := by
  cases i <;> rfl

/-- Everything a mnemonic and its operands can stand for (R60, R61): a command by its own mnemonic, or a `MODSQR`. -/
theorem commandNamed_cases {mnemonic : List Char} {ops : List RegField} {i : Instr}
    (h : commandNamed mnemonic ops = some i) :
    (mnemonic = mnemonicText i ∧ ops = i.fields) ∨
      (mnemonic = ['M', 'O', 'D', 'S', 'Q', 'R'] ∧ ∃ rd rs, ops = [rd, rs] ∧ i = modsqr rd rs) := by
  match ops with
  | [] =>
    rw [commandNamed] at h
    split at h
    case isTrue name => cases h; exact .inl ⟨name, rfl⟩
    case isFalse => cases h
  | [_] | _ :: _ :: _ :: _ :: _ => cases h
  | [rd, rs1] =>
    rw [commandNamed] at h
    split at h
    case isTrue name => cases h; exact .inl ⟨name, rfl⟩
    case isFalse =>
      split at h
      case isTrue name => cases h; exact .inl ⟨name, rfl⟩
      case isFalse =>
        split at h
        case isTrue name => cases h; exact .inr ⟨name, rd, rs1, rfl, rfl⟩
        case isFalse => cases h
  | [rd, rs1, rs2] =>
    rw [commandNamed] at h
    split at h
    case isTrue name => cases h; exact .inl ⟨name, rfl⟩
    case isFalse =>
      split at h
      case isTrue name => cases h; exact .inl ⟨name, rfl⟩
      case isFalse => cases h

/-- A command has no fields but the operands it is assembled from. -/
theorem fields_subset_of_commandNamed {mnemonic : List Char} {ops : List RegField} {i : Instr}
    (h : commandNamed mnemonic ops = some i) : ∀ f ∈ i.fields, f ∈ ops := by
  obtain ⟨-, rfl⟩ | ⟨-, rd, rs, rfl, rfl⟩ := commandNamed_cases h
  · exact fun f mem => mem
  · simp [modsqr, Instr.fields]

/-- A mnemonic fixes the length of its operand list (R60). -/
theorem length_fields (i : Instr) :
    i.fields.length =
      if mnemonicText i = ['N', 'O', 'P'] then 0
      else if mnemonicText i = ['M', 'O', 'D', 'I', 'N', 'V'] ∨ mnemonicText i = ['M', 'O', 'D', 'S', 'Q', 'R', 'T'] then 2
      else 3 := by
  cases i <;> rfl

/-- `MODSQR` is no command's own mnemonic (R61). -/
theorem mnemonicText_ne_modsqr (i : Instr) : mnemonicText i ≠ ['M', 'O', 'D', 'S', 'Q', 'R'] := by
  cases i <;> simp [mnemonicText]

theorem isWord_modsqr : IsWord ['M', 'O', 'D', 'S', 'Q', 'R'] := rfl

/-! ## The statements -/

/-- How a command's own line is read, with or without a comment (R60). -/
theorem assemble_commandText (i : Instr) {tail : List Char} (comment : tail.takeWhile (fun c => c ≠ ';') = []) :
    assemble (commandText i ++ tail) = if i.wellFormed then some i else none := by
  rw [commandText, assemble_lineText (isWord_mnemonicText i) (mnemonicText_ne_nil i) _ comment, mnemonicText_upper,
    commandNamed_mnemonicText]
  rfl

/-- Settles O53: the command's own line is read as it stands, and neither letter case nor a comment changes that. -/
theorem commandTextAssembles : Obligations.CommandTextAssembles := by
  intro i comment
  have plain : assemble (commandText i) = if i.wellFormed then some i else none := by
    rw [← assemble_commandText i (tail := []) rfl, List.append_nil]
  refine ⟨fun wf => ?_, fun ill => by rw [plain, ill]; rfl⟩
  rw [if_pos wf] at plain
  refine ⟨plain, by rw [assembleWord, plain]; rfl, ?_, ?_, ?_⟩
  · rw [assemble_map_toLower, plain]
  · rw [assemble_map_toUpper, plain]
  · rw [assemble_commandText i (tail := ';' :: comment) rfl, if_pos wf]

/-- A name that is read is a register's (R56, R60). -/
theorem namesRegister_of_registerName {cs : List Char} {f : RegField} (h : registerName cs = some f) :
    namesRegister f = true := by
  match cs with
  | [] | [_] | _ :: _ :: _ :: _ => cases h
  | [c, d] =>
    rw [registerName] at h
    split at h
    case isTrue digit =>
      cases h
      simp only [Bool.and_eq_true, decide_eq_true_eq] at digit
      have high : d.toNat ≤ 55 := digit.2
      have zero : '0'.toNat = 48 := rfl
      rw [namesRegister, decide_eq_true_eq, BitVec.toNat_ofNat, zero]
      omega
    case isFalse => cases h

/-- What a list of answers holds is the answer to some entry. -/
theorem exists_of_mem_mapM {α β : Type} {f : α → Option β} {l : List α} {l' : List β} (h : l.mapM f = some l') :
    ∀ b ∈ l', ∃ a ∈ l, f a = some b := by
  induction l generalizing l' with
  | nil => cases h; simp
  | cons a l ih =>
    rw [List.mapM_cons] at h
    obtain ⟨b, hb, rest⟩ := Option.bind_eq_some_iff.1 h
    obtain ⟨bs, hbs, same⟩ := Option.bind_eq_some_iff.1 rest
    cases same
    intro c mem
    obtain rfl | mem := List.mem_cons.1 mem
    · exact ⟨a, by simp, hb⟩
    · obtain ⟨a', mem', ha'⟩ := ih hbs c mem
      exact ⟨a', by simp [mem'], ha'⟩

theorem namesRegister_of_operandNames {cs : List Char} {ops : List RegField} (h : operandNames cs = some ops) :
    ∀ f ∈ ops, namesRegister f = true := by
  rw [operandNames] at h
  split at h
  case isTrue => cases h; simp
  case isFalse =>
    intro f mem
    obtain ⟨part, -, name⟩ := exists_of_mem_mapM h f mem
    exact namesRegister_of_registerName name

/-- Settles O6: a command's fields are among the operands read, and those are registers. -/
theorem assembledCommandsAreWellFormed : Obligations.AssembledCommandsAreWellFormed := by
  intro line i h
  simp only [assemble] at h
  split at h
  · cases h
  · next ops names =>
    rw [wellFormed_iff_fields, List.all_eq_true]
    exact fun f mem => namesRegister_of_operandNames names f (fields_subset_of_commandNamed h f mem)

/-- A line with valid operands and no comment stands for what its mnemonic names (R60). -/
theorem assemble_lineText_valid {word : List Char} (hw : IsWord word) (ne : word ≠ []) {ops : List RegField}
    (valid : ops.all namesRegister = true) : assemble (lineText word ops) = commandNamed (word.map Char.toUpper) ops := by
  rw [← List.append_nil (lineText word ops), assemble_lineText hw ne ops rfl, if_pos valid]

/-- Settles O54: `MODSQR` is read by its own name, and a mnemonic that is read has its own number of operands. -/
theorem pseudoCommandAndWrongLengths : Obligations.PseudoCommandAndWrongLengths := by
  refine ⟨fun rd rs hd hs => ?_, fun ops valid => ⟨fun i wrong => ?_, fun wrong => ?_⟩⟩
  · exact assemble_lineText_valid isWord_modsqr (List.cons_ne_nil _ _) (by simp [hd, hs])
  · rw [assemble_lineText_valid (isWord_mnemonicText i) (mnemonicText_ne_nil i) valid, mnemonicText_upper]
    refine Option.eq_none_iff_forall_ne_some.2 fun j named => ?_
    obtain ⟨same, rfl⟩ | ⟨square, -⟩ := commandNamed_cases named
    · exact wrong (by rw [length_fields, length_fields, same])
    · exact mnemonicText_ne_modsqr i square
  · rw [assemble_lineText_valid isWord_modsqr (List.cons_ne_nil _ _) valid]
    refine Option.eq_none_iff_forall_ne_some.2 fun j named => ?_
    obtain ⟨same, -⟩ | ⟨-, rd, rs, rfl, -⟩ := commandNamed_cases named
    · exact mnemonicText_ne_modsqr j same.symm
    · exact wrong rfl

end Sys2Proof.Machine
end

section
/-! How a command ends, whatever the word in flight, and when the next one is accepted (40_command_common). -/

namespace Sys2Proof.Machine

/-! ## How a command ends -/

/-- Settles O10: the outcome of `NOP` is a success without a value, which no check precedes (R67). -/
theorem nopSucceeds : Obligations.NopSucceeds := by
  intro s
  have success : execResult .nop s = .ok := rfl
  rw [exec_eq_complete, success]
  rfl

theorem OwnResult.ne_badModulus {p : Nat} {r : ExecResult} (own : OwnResult p r) : r ≠ .fail .badModulus := by
  rintro rfl
  obtain ⟨v, -, value⟩ | error | error | error := own
  · cases value
  all_goals cases error

/-- A well-formed arithmetic command has the outcome `BAD_MODULUS` exactly when `MOD` is no valid modulus (R69). -/
theorem execResult_eq_badModulus_iff {i : Instr} (wf : i.wellFormed = true) (arithmetic : i ≠ .nop) (s : State) :
    execResult i s = .fail .badModulus ↔ s.mod.toNat % 2 = 0 ∨ s.mod.toNat < 3 := by
  obtain ⟨nop, -⟩ | ⟨ill, -⟩ | ⟨-, -, bad, failed⟩ | ⟨-, -, odd, three, own⟩ := execResult_cases i s
  · exact absurd nop arithmetic
  · rw [wf] at ill; cases ill
  · exact iff_of_true failed bad
  · exact iff_of_false own.ne_badModulus (by omega)

/-- 3 is the code of `BAD_MODULUS` and of no other outcome (R90). -/
theorem eq_badModulus_of_complete_errCode {s : State} {rd : RegField} {r : ExecResult}
    (h : (s.complete rd r).errCode = 3) : r = .fail .badModulus := by
  cases r with
  | okValue v => cases h
  | ok => cases h
  | fail e =>
    rw [complete_fail_errCode] at h
    cases e with
    | badModulus => rfl
    | illegalOpcode | illegalOperand | noInverse | nonResidue | sqrtFail => cases h

/-- Settles O16: the outcome alone sets the code, and it is `BAD_MODULUS` exactly when `MOD` is no valid modulus. -/
theorem badModulusExactlyWhenInvalid : Obligations.BadModulusExactlyWhenInvalid := by
  intro s i wf arithmetic
  have outcome := execResult_eq_badModulus_iff wf arithmetic s
  refine ⟨fun invalid => ?_, fun valid => ⟨_, exec_eq_complete i s, fun three => ?_⟩⟩
  · rw [exec_eq_complete, outcome.2 invalid, complete_fail]
    rfl
  · exact valid (outcome.1 (eq_badModulus_of_complete_errCode three))

/-- The report of an outcome is a success with code 0 or an error with a code of 1 to 6 (R68, R90). -/
theorem complete_done_or_err (s : State) (rd : RegField) (r : ExecResult) :
    ((s.complete rd r).done = true ∧ (s.complete rd r).errCode = 0) ∨
      ((s.complete rd r).err = true ∧ 1 ≤ (s.complete rd r).errCode.toNat ∧ (s.complete rd r).errCode.toNat ≤ 6) := by
  cases r with
  | okValue v => exact .inl ⟨rfl, rfl⟩
  | ok => exact .inl ⟨rfl, rfl⟩
  | fail e => exact .inr ⟨rfl, e.code_range⟩

/-- Settles O21: the engine's step reports some outcome, for a command and for an illegal word. -/
theorem everyCommandInFlightCompletes : Obligations.EveryCommandInFlightCompletes := by
  intro s rest applied busy next
  obtain ⟨rd, r, completed⟩ := completeInFlight_eq (s.begin rest)
  refine ⟨_, (step_of_inFlight applied busy next).trans completed, ?_, complete_done_or_err _ rd r⟩
  exact State.complete_busy _ rd r

/-! ## When a command is accepted -/

theorem transact_cmd (s : State) (d : Word) :
    s.transact (.write 0x010 d 0b1111) = (s.cmdWrite d).respond .writeDone := by
  rw [State.transact, memWrite_cmd]

theorem transact_status (s : State) (d : Word) :
    s.transact (.write 0x00C d 0b1111) = (s.statusWrite d).respond .writeDone := by
  rw [State.transact, memWrite_status]

/-- Settles O23. -/
theorem cmdWriteAcceptsOrRefuses : Obligations.CmdWriteAcceptsOrRefuses := by
  intro s d
  rw [transact_cmd]
  obtain ⟨blocked, refused⟩ | ⟨idle, noErr, accepted⟩ := cmdWrite_cases s d
  · exact ⟨fun _ => by rw [refused], fun free => absurd blocked free⟩
  · exact ⟨fun blocked => by simp [idle, noErr] at blocked, fun _ => by rw [accepted]⟩

/-- Writing 1 to bit 2 of `STATUS` clears `ERR` and `ERRCODE` (R24, R100). -/
theorem statusWrite_acknowledges (s : State) {d : Word} (ack : d.getLsbD 2 = true) :
    (s.statusWrite d).err = false ∧ (s.statusWrite d).errCode = 0 := by
  simp [State.statusWrite, ack]

/-- Settles O24: by O23 the first write is refused, and after the acknowledgement neither `BUSY` nor `ERR` refuses it. -/
theorem errorBlocksUntilAcknowledged : Obligations.ErrorBlocksUntilAcknowledged := by
  intro s d ackWord idle error ack
  obtain ⟨noErr, noCode⟩ := statusWrite_acknowledges s ack
  have free : ¬((s.transact (.write 0x00C ackWord 0b1111)).busy = true ∨
      (s.transact (.write 0x00C ackWord 0b1111)).err = true) := by
    rw [transact_status, State.respond_busy, State.respond_err, State.statusWrite_busy, idle, noErr]
    decide
  rw [(cmdWriteAcceptsOrRefuses s d).1 (.inr error), (cmdWriteAcceptsOrRefuses _ d).2 free]
  exact ⟨idle, rfl, noCode, rfl, rfl⟩

end Sys2Proof.Machine
end

section
/-! `MODMUL` with any two sources (R72, R73). -/

namespace Sys2Proof.Machine

/-- `MODMUL` on a valid modulus passes the checks and its outcome is the reduced product (R67, R73). -/
theorem execResult_modmul {s : State} {rd rs1 rs2 : RegField} (wf : (Instr.modmul rd rs1 rs2).wellFormed = true)
    (odd : s.mod.toNat % 2 = 1) (three : 3 ≤ s.mod.toNat) :
    execResult (.modmul rd rs1 rs2) s = .okValue (s.regNat rs1 * s.regNat rs2 % s.mod.toNat) :=
  checkedResult_valid _ wf odd three

/-- Settles O11: the value written is the remainder of the product, and two congruent naturals below the modulus are
equal. -/
theorem modmulWritesReducedProduct : Obligations.ModmulWritesReducedProduct := by
  intro s rd rs1 rs2 hd h1 h2 odd three
  have wf : (Instr.modmul rd rs1 rs2).wellFormed = true := by
    simp [wellFormed_iff_fields, Instr.fields, hd, h1, h2]
  have below : s.regNat rs1 * s.regNat rs2 % s.mod.toNat < s.mod.toNat := Nat.mod_lt _ (by omega)
  have congruent := Nat.mod_modEq (s.regNat rs1 * s.regNat rs2) s.mod.toNat
  refine ⟨_, below, congruent, fun u uBelow uCongruent => ?_, ?_⟩
  · exact (uCongruent.trans congruent.symm).eq_of_lt_of_lt uBelow below
  · rw [exec_eq_complete, execResult_modmul wf odd three, complete_okValue]
    rfl

end Sys2Proof.Machine
end

section
/-! `MODINV` (R75, R76), and what a host reports from its end on `2a mod p` (R78). -/

namespace Sys2Proof.Machine

/-! ## The outcome of `MODINV` -/

/-- `MODINV` on a valid modulus passes the checks and its outcome is that of its own function (R67, R76). -/
theorem execResult_modinv {s : State} {rd rs1 : RegField} (hd : namesRegister rd = true)
    (h1 : namesRegister rs1 = true) (odd : s.mod.toNat % 2 = 1) (three : 3 ≤ s.mod.toNat) :
    execResult (.modinv rd rs1) s = inverseResult (s.regNat rs1) s.mod.toNat :=
  checkedResult_valid _ (by simp [hd, h1]) odd three

theorem inverseResult_of_gcd_eq_one {a p : Nat} (coprime : Nat.gcd (a % p) p = 1) :
    inverseResult a p = .okValue (inverseMod (a % p) p) := if_neg (not_not_intro coprime)

theorem inverseResult_of_gcd_ne_one {a p : Nat} (common : Nat.gcd (a % p) p ≠ 1) :
    inverseResult a p = .fail .noInverse := if_pos common

/-- The remainder of a natural modulo a prime is coprime to it exactly when it is not 0 (R75). -/
theorem gcd_mod_prime_eq_one_iff {p : Nat} (prime : p.Prime) (a : Nat) : Nat.gcd (a % p) p = 1 ↔ a % p ≠ 0 := by
  rw [(Nat.mod_modEq a p).gcd_eq, Nat.gcd_comm, ← Nat.coprime_iff_gcd_eq_one, prime.coprime_iff_not_dvd,
    Nat.dvd_iff_mod_eq_zero]

/-- Settles O12: `inverseMod` has the law of the inverse where the gcd is 1, and a natural with an inverse is coprime to the
modulus. -/
theorem modinvWritesInverseOrFails : Obligations.ModinvWritesInverseOrFails := by
  intro s rd rs1 hd h1 odd three
  have own := execResult_modinv hd h1 odd three
  refine ⟨fun coprime => ?_, fun common => ⟨fun ⟨y, inverse⟩ => ?_, ?_⟩, (Nat.mod_modEq _ _).gcd_eq, fun zero => ?_,
    fun prime => gcd_mod_prime_eq_one_iff prime _⟩
  · obtain ⟨pos, below, inverse⟩ := inverseMod_spec (by omega) coprime
    have one : 1 % s.mod.toNat = 1 := Nat.mod_eq_of_lt (by omega)
    refine ⟨_, pos, below, inverse.trans one.symm, fun u _ uBelow uInverse => ?_, ?_⟩
    · exact inverse_unique uBelow below (by omega) (Eq.trans uInverse one) inverse
    · rw [exec_eq_complete, own, inverseResult_of_gcd_eq_one coprime, complete_okValue]
      rfl
  · exact common (Nat.coprime_of_mul_modEq_one y inverse)
  · rw [exec_eq_complete, own, inverseResult_of_gcd_ne_one common, complete_fail]
    rfl
  · rw [zero, Nat.gcd_zero_left]
    omega

/-! ## The report of `SingularQuadratic` -/

/-- 4 is the code at the end of `MODINV`'s own function exactly when there is no inverse (R76, R90). -/
theorem complete_inverseResult_errCode_eq_four_iff (s : State) (rd : RegField) (a p : Nat) :
    (s.complete rd (inverseResult a p)).errCode = 4 ↔ Nat.gcd (a % p) p ≠ 1 := by
  by_cases coprime : Nat.gcd (a % p) p = 1
  · rw [inverseResult_of_gcd_eq_one coprime]
    exact iff_of_false (by simp [State.complete]) (not_not_intro coprime)
  · rw [inverseResult_of_gcd_ne_one coprime, complete_fail_errCode]
    exact iff_of_true rfl coprime

theorem reportedError_modinv_iff (rd rs1 : RegField) (t : State) :
    reportedError (.modinv rd rs1) t = some .singularQuadratic ↔ t.errCode = 4 := by
  rw [reportedError]
  split
  next code => exact iff_of_true rfl code
  next code => exact iff_of_false nofun code

/-- An odd modulus divides `2a` exactly when it divides `a` (R78). -/
theorem two_mul_mod_odd_eq_zero_iff {p : Nat} (odd : p % 2 = 1) (a : Nat) : 2 * a % p = 0 ↔ a % p = 0 := by
  have coprime : Nat.Coprime p 2 := Nat.coprime_two_right.2 (Nat.odd_iff.2 odd)
  rw [← Nat.dvd_iff_mod_eq_zero, ← Nat.dvd_iff_mod_eq_zero, coprime.dvd_mul_left]

/-- Settles O55: code 4 says that `2a mod p` has no inverse, which for an odd prime says that `p` divides `a`. -/
theorem singularQuadraticReported : Obligations.SingularQuadraticReported := by
  intro s rd rs1 a hd h1 prime odd operand
  have three : 3 ≤ s.mod.toNat := by
    have := prime.two_le
    omega
  have code : (s.complete rd (execResult (.modinv rd rs1) s)).errCode = 4 ↔ a % s.mod.toNat = 0 := by
    rw [execResult_modinv hd h1 odd three, complete_inverseResult_errCode_eq_four_iff, Ne,
      gcd_mod_prime_eq_one_iff prime, not_not, operand, Nat.mod_mod, two_mul_mod_odd_eq_zero_iff odd]
  exact ⟨_, exec_eq_complete _ s, (reportedError_modinv_iff rd rs1 _).trans code, code⟩

end Sys2Proof.Machine
end

section
/-! `MODSQRT` for a prime and for a composite modulus (R79 to R83), and what a host reports from its end (R86). -/

namespace Sys2Proof.Machine

/-! ## The outcome of `MODSQRT` -/

/-- `MODSQRT` on a valid modulus passes the checks and its outcome is that of `SqrtProc` (R67, R82). -/
theorem execResult_modsqrt {s : State} {rd rs1 : RegField} (hd : namesRegister rd = true)
    (h1 : namesRegister rs1 = true) (odd : s.mod.toNat % 2 = 1) (three : 3 ≤ s.mod.toNat) :
    execResult (.modsqrt rd rs1) s = sqrtProc (s.regNat rs1) s.mod.toNat :=
  checkedResult_valid _ (by simp [hd, h1]) odd three

/-- The end of `MODSQRT` on a valid modulus is the report of the outcome of `SqrtProc` (R68, R82). -/
theorem exec_modsqrt {s : State} {rd rs1 : RegField} (hd : namesRegister rd = true)
    (h1 : namesRegister rs1 = true) (odd : s.mod.toNat % 2 = 1) (three : 3 ≤ s.mod.toNat) :
    exec (.modsqrt rd rs1) s = .next (s.complete rd (sqrtProc (s.regNat rs1) s.mod.toNat)) := by
  rw [exec_eq_complete, execResult_modsqrt hd h1 odd three]
  rfl

/-- Settles O14: a value that `SqrtProc` returns is a verified root at most `(p-1)/2`, and its errors are these two. -/
theorem modsqrtRootIsVerified : Obligations.ModsqrtRootIsVerified := by
  intro s rd rs1 hd h1 odd three
  rw [exec_modsqrt hd h1 odd three]
  obtain ⟨v, root⟩ | error | error := sqrtProc_cases (s.regNat rs1) s.mod.toNat
  · obtain ⟨verified, canonical⟩ := sqrtProc_okValue odd root
    exact .inl ⟨v, canonical, verified, by rw [root, complete_okValue]⟩
  · exact .inr (.inl (by rw [error, complete_fail]; rfl))
  · exact .inr (.inr (by rw [error, complete_fail]; rfl))

/-! ## The cases of R80 and R81 for a prime modulus -/

theorem three_le_of_odd_prime {p : Nat} (prime : p.Prime) (odd : p % 2 = 1) : 3 ≤ p := by
  have := prime.two_le
  omega

theorem sqrtProc_of_mod_eq_zero {a p : Nat} (zero : a % p = 0) : sqrtProc a p = .okValue 0 := if_pos zero

theorem finishRoot_ne_nonResidue (a r p : Nat) : finishRoot a r p ≠ .fail .nonResidue := by
  rw [finishRoot]
  split
  · nofun
  · split <;> nofun

/-- Only Euler's criterion raises `NON_RESIDUE`: the steps after it do not (R80). -/
theorem sqrtAfterEuler_ne_nonResidue (a p : Nat) : sqrtAfterEuler a p ≠ .fail .nonResidue := by
  rw [sqrtAfterEuler]
  split
  · exact finishRoot_ne_nonResidue _ _ _
  · split
    · nofun
    · split
      · nofun
      · exact finishRoot_ne_nonResidue _ _ _

section Prime

variable {p : Nat} [Fact p.Prime]

theorem cast_eq_zero_iff_mod (a : Nat) : (a : ZMod p) = 0 ↔ a % p = 0 := by
  rw [ZMod.natCast_eq_zero_iff, Nat.dvd_iff_mod_eq_zero]

/-- Steps 1 and 2 of R80 on a non-residue (R81(b)). -/
theorem sqrtProc_of_not_isSquare (odd : p % 2 = 1) {a : Nat} (non : ¬IsSquare (a : ZMod p)) :
    sqrtProc a p = .fail .nonResidue := by
  have nonzero : (a : ZMod p) ≠ 0 := fun zero => non (zero ▸ IsSquare.zero)
  have euler : powMod (a % p) ((p - 1) / 2) p = p - 1 := by
    rw [powMod_eq_pred_iff, cast_mod_self]
    exact (euler_nonResidue odd nonzero).2 non
  rw [sqrtProc, if_neg (mt (cast_eq_zero_iff_mod a).2 nonzero), if_pos euler]

theorem euler_of_isSquare (odd : p % 2 = 1) {a : Nat} (nonzero : a % p ≠ 0) (square : IsSquare (a : ZMod p)) :
    ((a % p : Nat) : ZMod p) ^ ((p - 1) / 2) = 1 := by
  rw [cast_mod_self]
  exact (euler_residue odd (mt (cast_eq_zero_iff_mod a).1 nonzero)).2 square

/-- Steps 1 and 2 of R80 on a nonzero residue, which passes Euler's criterion. -/
theorem sqrtProc_of_isSquare (odd : p % 2 = 1) {a : Nat} (nonzero : a % p ≠ 0) (square : IsSquare (a : ZMod p)) :
    sqrtProc a p = sqrtAfterEuler (a % p) p := by
  have euler : powMod (a % p) ((p - 1) / 2) p = 1 := (powMod_eq_one_iff _ _).2 (euler_of_isSquare odd nonzero square)
  have three := three_le_of_odd_prime (Fact.out : p.Prime) odd
  rw [sqrtProc, if_neg nonzero, euler, if_neg (by omega), if_neg (not_not_intro rfl)]

/-- For an odd prime the outcome is `NON_RESIDUE` exactly without a square root (R81, R86). -/
theorem sqrtProc_eq_nonResidue_iff (odd : p % 2 = 1) (a : Nat) :
    sqrtProc a p = .fail .nonResidue ↔ ¬IsSquare (a : ZMod p) := by
  refine ⟨fun error square => ?_, sqrtProc_of_not_isSquare odd⟩
  by_cases zero : a % p = 0
  · rw [sqrtProc_of_mod_eq_zero zero] at error
    cases error
  · rw [sqrtProc_of_isSquare odd zero square] at error
    exact sqrtAfterEuler_ne_nonResidue _ _ error

/-- A power with an odd exponent `q`, where `q·2^k = p - 1`, is the one of R81(c): such a `q` divides the odd part of
`p - 1`. -/
theorem powMod_oddPart_eq_one {a q k : Nat} (qOdd : q % 2 = 1) (prod : q * 2 ^ k = p - 1) (one : a ^ q % p = 1) :
    powMod (a % p) (oddPart (p - 1)).1 p = 1 := by
  have big := one_lt_prime (p := p)
  obtain ⟨-, oddProd⟩ := oddPart_spec (n := p - 1) (by omega)
  have coprime : Nat.Coprime q (2 ^ (oddPart (p - 1)).2) :=
    (Nat.coprime_two_right.2 (Nat.odd_iff.2 qOdd)).pow_right _
  obtain ⟨d, quotient⟩ : q ∣ (oddPart (p - 1)).1 :=
    coprime.dvd_of_dvd_mul_right (Dvd.intro _ (prod.trans oddProd.symm))
  have castOne : (a : ZMod p) ^ q = 1 := (powMod_eq_one_iff a q).1 ((powMod_eq a q p).trans one)
  rw [powMod_eq_one_iff, cast_mod_self, quotient, pow_mul, castOne, one_pow]

/-- The search of R80 step 4 looks below `p` only: a non-residue up to `Z_MAX` has one there that is not above it. -/
theorem exists_nonResidue_below {z : Nat} (zMax : z ≤ Config.zMax) (non : ¬IsSquare (z : ZMod p)) :
    ∃ y, 2 ≤ y ∧ y ≤ Config.zMax ∧ y < p ∧ ¬IsSquare (y : ZMod p) := by
  have nonMod : ¬IsSquare ((z % p : Nat) : ZMod p) := by rwa [cast_mod_self]
  refine ⟨z % p, ?_, (Nat.mod_le z p).trans zMax, Nat.mod_lt z one_lt_prime.le, nonMod⟩
  by_contra small
  obtain zero | one : z % p = 0 ∨ z % p = 1 := by omega
  · exact nonMod (by simp [zero])
  · exact nonMod (by simp [one])

/-- A residue has one root in `[1, (p-1)/2]` (R79). -/
theorem canonicalRoot_unique {x y : Nat} (xPos : 1 ≤ x) (xHalf : x ≤ (p - 1) / 2) (yHalf : y ≤ (p - 1) / 2)
    (squares : x * x ≡ y * y [MOD p]) : x = y := by
  have cast : (x : ZMod p) * x = y * y := by
    exact_mod_cast (ZMod.natCast_eq_natCast_iff _ _ p).2 squares
  obtain same | opposite := mul_self_eq_mul_self_iff.1 cast
  · exact eq_of_cast_eq (by omega) (by omega) same
  · have zero : ((x + y : Nat) : ZMod p) = ((0 : Nat) : ZMod p) := by
      rw [Nat.cast_add, opposite, neg_add_cancel, Nat.cast_zero]
    have := eq_of_cast_eq (by omega) (by omega) zero
    omega

end Prime

/-- Settles O13: R81(a) and (b) are the first two steps of `SqrtProc`, and (c) and (d) the two ways in which the steps after
Euler's criterion find a root. -/
theorem modsqrtPrimeWritesCanonicalRoot : Obligations.ModsqrtPrimeWritesCanonicalRoot := by
  intro s rd rs1 hd h1 prime odd
  have : Fact s.mod.toNat.Prime := ⟨prime⟩
  rw [exec_modsqrt hd h1 odd (three_le_of_odd_prime prime odd)]
  refine ⟨fun zero => ?_, fun non => ?_, fun nonzero square ways => ?_⟩
  · rw [sqrtProc_of_mod_eq_zero zero, complete_okValue]
  · rw [sqrtProc_of_not_isSquare odd non, complete_fail]
    rfl
  · have found := ways.imp
      (fun ⟨q, k, qOdd, prod, one⟩ => powMod_oddPart_eq_one qOdd prod one)
      (fun ⟨z, _, zMax, non⟩ => exists_nonResidue_below zMax non)
    obtain ⟨r, value, root, half⟩ := sqrtAfterEuler_prime odd (Nat.mod_lt _ prime.pos)
      (euler_of_isSquare odd nonzero square) found
    have pos : 1 ≤ r := by
      refine Nat.pos_of_ne_zero fun zero => nonzero ?_
      rw [← root, zero, Nat.zero_mul, Nat.zero_mod]
    refine ⟨r, pos, half, root, fun u uPos uHalf uRoot => ?_, ?_⟩
    · exact canonicalRoot_unique uPos uHalf half (uRoot.trans root.symm)
    · rw [sqrtProc_of_isSquare odd nonzero square, value, complete_okValue]

/-! ## The report of `NoQuadraticResidue` -/

/-- 5 is the code at the end of `SqrtProc` exactly when its outcome is `NON_RESIDUE` (R86, R90). -/
theorem complete_sqrtProc_errCode_eq_five_iff (s : State) (rd : RegField) (a p : Nat) :
    (s.complete rd (sqrtProc a p)).errCode = 5 ↔ sqrtProc a p = .fail .nonResidue := by
  obtain ⟨v, outcome⟩ | outcome | outcome := sqrtProc_cases a p <;> rw [outcome]
  · exact iff_of_false nofun nofun
  · exact iff_of_true rfl rfl
  · exact iff_of_false nofun nofun

/-- Code 0 at the end of `SqrtProc` says that a value was written (R68, R91). -/
theorem sqrtProc_okValue_of_errCode_eq_zero {s : State} {rd : RegField} {a p : Nat}
    (noCode : (s.complete rd (sqrtProc a p)).errCode = 0) : ∃ v, sqrtProc a p = .okValue v := by
  obtain value | outcome | outcome := sqrtProc_cases a p
  · exact value
  all_goals rw [outcome, complete_fail_errCode] at noCode; cases noCode

theorem reportedError_modsqrt_iff (rd rs1 : RegField) (t : State) :
    reportedError (.modsqrt rd rs1) t = some .noQuadraticResidue ↔ t.errCode = 5 := by
  rw [reportedError]
  split
  next code => exact iff_of_true rfl code
  next code => exact iff_of_false nofun code

/-- The other root `p - r` gives the same two candidates in the other order (R86). -/
theorem candidates_sub_eq_swap {b r p : Nat} (inv2a : Nat) (hb : b ≤ p) (hr : r ≤ p) :
    candidates b (p - r) inv2a p = (candidates b r inv2a p).swap := by
  have first : 2 * p - (b + (p - r)) = p - b + r := by omega
  have second : p - b + (p - r) = 2 * p - (b + r) := by omega
  rw [candidates, candidates, Prod.swap_prod_mk, first, second]

/-- Settles O56: code 5 says that `SqrtProc` found no root, and a root it writes is verified and at most `(p-1)/2`. -/
theorem noQuadraticResidueReported : Obligations.NoQuadraticResidueReported := by
  intro s rd rs1 hd h1 prime odd
  have : Fact s.mod.toNat.Prime := ⟨prime⟩
  have code : (s.complete rd (sqrtProc (s.regNat rs1) s.mod.toNat)).errCode = 5 ↔
      ¬IsSquare (s.regNat rs1 : ZMod s.mod.toNat) :=
    (complete_sqrtProc_errCode_eq_five_iff _ _ _ _).trans (sqrtProc_eq_nonResidue_iff odd _)
  refine ⟨_, exec_modsqrt hd h1 odd (three_le_of_odd_prime prime odd), (reportedError_modsqrt_iff rd rs1 _).trans code,
    code, fun noCode => ?_⟩
  obtain ⟨v, value⟩ := sqrtProc_okValue_of_errCode_eq_zero noCode
  obtain ⟨root, half⟩ := sqrtProc_okValue odd value
  have below : v < s.mod.toNat := by
    have := prime.pos
    omega
  rw [value, complete_okValue, regNat_succeeded rd below]
  exact ⟨half, root, fun b inv2a hb => candidates_sub_eq_swap inv2a hb below.le⟩

end Sys2Proof.Machine
end

section
/-! `MODEXP` writes the power with the whole exponent (R87, R88). -/

namespace Sys2Proof.Machine

/-- R88 reduces the base before `powmod`, and never the exponent; that does not change the power modulo `p` (R87). -/
theorem powResult_eq (x e p : Nat) : powResult x e p = .okValue (x ^ e % p) := by
  rw [powResult, powMod_eq, ← Nat.pow_mod]

/-- `MODEXP` on a valid modulus passes the checks, and has no error of its own (R67, R88). -/
theorem execResult_modexp {s : State} {rd rs1 rs2 : RegField} (hd : namesRegister rd = true)
    (h1 : namesRegister rs1 = true) (h2 : namesRegister rs2 = true) (odd : s.mod.toNat % 2 = 1)
    (three : 3 ≤ s.mod.toNat) :
    execResult (.modexp rd rs1 rs2) s = .okValue (s.regNat rs1 ^ s.regNat rs2 % s.mod.toNat) := by
  rw [← powResult_eq]
  exact checkedResult_valid _ (by simp [hd, h1, h2]) odd three

/-- Settles O15: `powmod` is the power reduced once, and `x^0 = 1` stays 1 below a modulus of at least 3. -/
theorem modexpWritesPower : Obligations.ModexpWritesPower := by
  intro s rd rs1 rs2 hd h1 h2 odd three
  refine ⟨?_, fun zero => ?_⟩
  · rw [exec_eq_complete, execResult_modexp hd h1 h2 odd three, complete_okValue]
    rfl
  · rw [zero, pow_zero, Nat.mod_eq_of_lt (by omega)]

end Sys2Proof.Machine
end

section
/-! A command that fails is precise (R92). -/

namespace Sys2Proof.Machine

/-- A success leaves `ERR` alone, so where `ERR` rises the report was an error's, which is precise (R68, R92). -/
theorem complete_eq_failed_of_err {s : State} {rd : RegField} {r : ExecResult} (noErr : s.err = false)
    (err : (s.complete rd r).err = true) : s.complete rd r = s.failed (s.complete rd r).errCode := by
  cases r with
  | okValue v =>
    have kept : (s.complete rd (.okValue v)).err = s.err := rfl
    rw [kept, noErr] at err
    cases err
  | ok =>
    have kept : (s.complete rd .ok).err = s.err := State.reportSuccess_err s
    rw [kept, noErr] at err
    cases err
  | fail e => rw [complete_fail_errCode, complete_fail]

/-- Settles O22: for a command and for an illegal word the completion reports some outcome. -/
theorem failedCommandIsPrecise : Obligations.FailedCommandIsPrecise := by
  intro s t _ noErr next err
  obtain ⟨rd, r, completed⟩ := completeInFlight_eq s
  obtain rfl : s.complete rd r = t := Host.Outcome.next.inj (completed.symm.trans next)
  exact complete_eq_failed_of_err noErr err

end Sys2Proof.Machine
end

section
/-! A transaction that overlaps a reset (R110), and what keeps the launch premise (R113). -/

namespace Sys2Proof.Machine

/-! ## A reset with a request on the pins -/

/-- A request that starts at a reset edge is refused by the edge, one held since an earlier edge by the reset itself
(R110). -/
theorem clockEdge_refused_of_overlap {p : Pins} {s : State} (low : p.rstN = false)
    (overlap : p.req = true ∨ s.env.request.isSome = true) (ack : Bool) :
    clockEdge p ack s = .refused .transactionDuringReset := by
  cases req : p.req with
  | true => simp [clockEdge, low, req]
  | false =>
    have held : s.env.request.isSome = true := by simpa [req] using overlap
    rw [clockEdge_reset low req]
    obtain ⟨free, -⟩ | ⟨-, refused⟩ := hardReset_cases s
    · simp [free] at held
    · exact refused

/-- Settles O45: what the step does before its event leaves the held request. -/
theorem transactionDuringResetIsRefused : Obligations.TransactionDuringResetIsRefused := by
  intro s p ack rest schedule low overlap
  rw [step_of_schedule schedule]
  exact clockEdge_refused_of_overlap (s := s.begin rest) low overlap ack

/-! ## The launch premise -/

/-- The launch premise does not speak of the registers with windows, nor of the enables of `CTRL`, and of the environment
only that a reset has been applied (R113). -/
theorem State.Launch.of_frame {s t : State} (launch : s.Launch) (applied : t.env.resetApplied = s.env.resetApplied)
    (frame : t = { s with regs := t.regs, mod := t.mod, ieDone := t.ieDone, ieErr := t.ieErr, env := t.env }) :
    t.Launch := by
  obtain ⟨sApplied, flags⟩ := launch
  refine ⟨applied.trans sApplied, ?_⟩
  rw [frame]
  exact flags

theorem launch_reset : State.reset.Launch := ⟨rfl, rfl, rfl, rfl, rfl, rfl, rfl, rfl⟩

theorem launch_transact_ctrl {s : State} (launch : s.Launch) {d : Word} (noReset : d.getLsbD 31 = false) :
    (s.transact (.write 0x008 d 0b1111)).Launch := by
  rw [transact_ctrl noReset]
  exact launch.of_frame rfl rfl

/-- The premise has the unit idle, so the write reaches the register behind the window and sets no `ACCERR` (R43). -/
theorem launch_transact_window {s : State} (launch : s.Launch) (x : BigReg) {j : Nat} (hj : j ≤ 63) (d : Word) :
    (s.transact (.write (windowOffset x j) d 0b1111)).Launch := by
  have idle : s.busy = false := by
    obtain ⟨-, idle, -⟩ := launch
    exact idle
  rw [State.transact, memWrite_window_idle idle x hj]
  cases x with
  | mod => exact launch.of_frame rfl rfl
  | r k => exact launch.of_frame rfl rfl

/-- Settles O47. -/
theorem launchPremiseKept : Obligations.LaunchPremiseKept :=
  ⟨launch_reset, fun _ d x _ launch hj => ⟨launch_transact_ctrl launch, launch_transact_window launch x hj d⟩⟩

end Sys2Proof.Machine
end
